-- ==== Sys2Proof/Word.lean ====
section
/-! DEFINITION. The three widths of the machine: byte, half-word and word (spec/00_scope.md, Glossary and R3). -/

namespace Sys2Proof

/-- A byte of memory, 8 bits (R33). -/
abbrev Byte := BitVec 8

/-- A half-word, 32 bits: an immediate, a float (Glossary). -/
abbrev Half := BitVec 32

/-- A word, 64 bits: a register, an instruction, a double (R10, R60, Glossary). -/
abbrev Word := BitVec 64

end Sys2Proof
end

