-- ==== Sys2Proof/Syntax.lean ====
section
/-! DEFINITION. The instructions as data: one constructor of `Instr` for each row of spec/opcode_table.json. Operand fields
hold every value their bits can hold (a register number of 200 is a term): what such a value does is the machine's to
say (R70, R75). -/

namespace Sys2Proof

/-- The twenty mnemonics, in the order of the opcode map (R73). -/
inductive Op where
  | nop | load | loadu | store | add | sub | mul | div | mod | cmp
  | not | and | or | xor | shr | shl | push | call | ret | syscall
deriving DecidableEq, Repr

/-- The data-type indicator (R65): six datatypes and the two codes that are none. -/
inductive Datatype where
  /-- 32-bit unsigned integer, 000 -/
  | hu
  /-- 64-bit unsigned integer, 001 -/
  | u
  /-- 32-bit signed integer, 010 -/
  | hi
  /-- 64-bit signed integer, 011 -/
  | i
  /-- 32-bit float, 100 -/
  | f
  /-- 64-bit double, 101 -/
  | d
  /-- 110: not a datatype -/
  | bad6
  /-- 111: not a datatype -/
  | bad7
deriving DecidableEq, Repr

/-- A `<value>` operand (R66, R67). -/
inductive Value where
  /-- indicator 00, `imm` -/
  | imm (n : Half)
  /-- indicator 01, `$reg` -/
  | reg (r : BitVec 8)
  /-- indicator 10, `(mem)` -/
  | mem (a : Half)
  /-- indicator 11, `n($reg)` -/
  | ind (r : BitVec 8) (n : BitVec 24)
deriving DecidableEq, Repr

/-- An `<addr>` operand (R66, R67). -/
inductive Addr where
  /-- indicator 0, `(mem)` -/
  | mem (a : Half)
  /-- indicator 1, `n($reg)` -/
  | ind (r : BitVec 8) (n : BitVec 24)
deriving DecidableEq, Repr

/-- The instructions (R2, R73). `c` is the 4-bit conditional test of R62, which every instruction but `nop` has. -/
inductive Instr where
  | nop
  | load (c : BitVec 4) (reg : BitVec 8) (v : Value)
  | loadu (c : BitVec 4) (reg : BitVec 8) (v : Value)
  | store (c : BitVec 4) (reg : BitVec 8) (a : Addr)
  | add (c : BitVec 4) (dt : Datatype) (reg1 reg2 : BitVec 8) (v : Value)
  | sub (c : BitVec 4) (dt : Datatype) (reg1 reg2 : BitVec 8) (v : Value)
  | mul (c : BitVec 4) (dt : Datatype) (reg1 reg2 : BitVec 8) (v : Value)
  | div (c : BitVec 4) (dt : Datatype) (reg1 reg2 : BitVec 8) (v : Value)
  | mod (c : BitVec 4) (reg1 reg2 : BitVec 8) (v : Value)
  | cmp (c : BitVec 4) (dt : Datatype) (reg : BitVec 8) (v : Value)
  | not (c : BitVec 4) (reg1 reg2 : BitVec 8)
  | and (c : BitVec 4) (reg1 reg2 : BitVec 8) (v : Value)
  | or (c : BitVec 4) (reg1 reg2 : BitVec 8) (v : Value)
  | xor (c : BitVec 4) (reg1 reg2 : BitVec 8) (v : Value)
  | shr (c : BitVec 4) (reg1 reg2 : BitVec 8) (v : Value)
  | shl (c : BitVec 4) (reg1 reg2 : BitVec 8) (v : Value)
  | push (c : BitVec 4) (v : Value)
  | call (c : BitVec 4) (a : Addr)
  | ret (c : BitVec 4)
  | syscall (c : BitVec 4) (v : Value)
deriving DecidableEq, Repr

/-- The mnemonic of an instruction. -/
def Instr.op : Instr → Op
  | .nop => .nop
  | .load .. => .load
  | .loadu .. => .loadu
  | .store .. => .store
  | .add .. => .add
  | .sub .. => .sub
  | .mul .. => .mul
  | .div .. => .div
  | .mod .. => .mod
  | .cmp .. => .cmp
  | .not .. => .not
  | .and .. => .and
  | .or .. => .or
  | .xor .. => .xor
  | .shr .. => .shr
  | .shl .. => .shl
  | .push .. => .push
  | .call .. => .call
  | .ret .. => .ret
  | .syscall .. => .syscall

/-- The conditional test of an instruction; `nop` has none (R162). -/
def Instr.test : Instr → Option (BitVec 4)
  | .nop => none
  | .load c .. | .loadu c .. | .store c .. => some c
  | .add c .. | .sub c .. | .mul c .. | .div c .. | .mod c .. | .cmp c .. => some c
  | .not c .. | .and c .. | .or c .. | .xor c .. | .shr c .. | .shl c .. => some c
  | .push c .. | .call c .. | .ret c | .syscall c .. => some c

/-- The same instruction under another conditional test; `nop` has none. -/
def Instr.withTest (c : BitVec 4) : Instr → Instr
  | .nop => .nop
  | .load _ r v => .load c r v
  | .loadu _ r v => .loadu c r v
  | .store _ r a => .store c r a
  | .add _ t r1 r2 v => .add c t r1 r2 v
  | .sub _ t r1 r2 v => .sub c t r1 r2 v
  | .mul _ t r1 r2 v => .mul c t r1 r2 v
  | .div _ t r1 r2 v => .div c t r1 r2 v
  | .mod _ r1 r2 v => .mod c r1 r2 v
  | .cmp _ t r v => .cmp c t r v
  | .not _ r1 r2 => .not c r1 r2
  | .and _ r1 r2 v => .and c r1 r2 v
  | .or _ r1 r2 v => .or c r1 r2 v
  | .xor _ r1 r2 v => .xor c r1 r2 v
  | .shr _ r1 r2 v => .shr c r1 r2 v
  | .shl _ r1 r2 v => .shl c r1 r2 v
  | .push _ v => .push c v
  | .call _ a => .call c a
  | .ret _ => .ret c
  | .syscall _ v => .syscall c v

/-- The destination `<reg>` operand of the thirteen instructions that have one (R20). -/
def Instr.dest : Instr → Option (BitVec 8)
  | .load _ r _ | .loadu _ r _ => some r
  | .add _ _ r _ _ | .sub _ _ r _ _ | .mul _ _ r _ _ | .div _ _ r _ _ | .mod _ r _ _ => some r
  | .not _ r _ | .and _ r _ _ | .or _ r _ _ | .xor _ r _ _ | .shr _ r _ _ | .shl _ r _ _ => some r
  | .nop | .store .. | .cmp .. | .push .. | .call .. | .ret .. | .syscall .. => none

end Sys2Proof
end

