-- ==== Sys2Proof/WellFormed.lean ====
section
/-! DEFINITION. Which instructions an assembler of this hardware can produce: the conditional tests of R62, the datatypes of
R65, register numbers below 32 (R11). The machine gives a meaning to the other terms too (the errors of R171, the
reserved tests of R75); notes/assumptions/28.md. -/

namespace Sys2Proof

/-- R62: the nine codes with an assembler suffix. -/
def testAssigned (c : BitVec 4) : Bool :=
  c ∈ [0b1111#4, 0b0000#4, 0b0001#4, 0b0010#4, 0b0011#4, 0b0110#4, 0b0111#4, 0b1001#4, 0b1000#4]

/-- R75: the codes with low bits 100 or 101, reserved. -/
def testReserved (c : BitVec 4) : Bool :=
  c ∈ [0b0100#4, 0b0101#4, 0b1100#4, 0b1101#4]

/-- R11: numbers 32 to 255 select no register. -/
def regAssigned (r : BitVec 8) : Bool := r.toNat < 32

/-- R65: 110 and 111 are not datatypes. -/
def Datatype.assigned : Datatype → Bool
  | .bad6 | .bad7 => false
  | _ => true

/-- The register named inside a value is a register. -/
def Value.wellFormed : Value → Bool
  | .imm _ | .mem _ => true
  | .reg r | .ind r _ => regAssigned r

/-- The base register of an address is a register. -/
def Addr.wellFormed : Addr → Bool
  | .mem _ => true
  | .ind r _ => regAssigned r

/-- The checks of an instruction, operand by operand. -/
def Instr.wellFormed : Instr → Bool
  | .nop => true
  | .load c r v | .loadu c r v => testAssigned c && regAssigned r && v.wellFormed
  | .store c r a => testAssigned c && regAssigned r && a.wellFormed
  | .add c t r1 r2 v | .sub c t r1 r2 v | .mul c t r1 r2 v | .div c t r1 r2 v =>
      testAssigned c && t.assigned && regAssigned r1 && regAssigned r2 && v.wellFormed
  | .mod c r1 r2 v | .and c r1 r2 v | .or c r1 r2 v | .xor c r1 r2 v | .shr c r1 r2 v | .shl c r1 r2 v =>
      testAssigned c && regAssigned r1 && regAssigned r2 && v.wellFormed
  | .cmp c t r v => testAssigned c && t.assigned && regAssigned r && v.wellFormed
  | .not c r1 r2 => testAssigned c && regAssigned r1 && regAssigned r2
  | .push c v | .syscall c v => testAssigned c && v.wellFormed
  | .call c a => testAssigned c && a.wellFormed
  | .ret c => testAssigned c

end Sys2Proof
end

