-- ==== Sys2Proof/Decode.lean ====
section
/-! DEFINITION. The decoder and the encoder (spec/30_encoding.md). The opcode numbers, field positions and the order of a
field's parts are the spec's decisions D8 to D12 (notes/assumptions/20.md); each stands once, here. -/

namespace Sys2Proof

/-! ### The opcode map (R73) -/

/-- R73: the opcode of each mnemonic. -/
def Op.code : Op → BitVec 6
  | .nop => 0
  | .load => 1
  | .loadu => 2
  | .store => 3
  | .add => 4
  | .sub => 5
  | .mul => 6
  | .div => 7
  | .mod => 8
  | .cmp => 9
  | .not => 10
  | .and => 11
  | .or => 12
  | .xor => 13
  | .shr => 14
  | .shl => 15
  | .push => 16
  | .call => 17
  | .ret => 18
  | .syscall => 19

/-- Every mnemonic. -/
def Op.all : List Op :=
  [.nop, .load, .loadu, .store, .add, .sub, .mul, .div, .mod, .cmp,
   .not, .and, .or, .xor, .shr, .shl, .push, .call, .ret, .syscall]

/-- R80: the opcode looked up in the map; `none` for the unassigned opcodes of R75. -/
def Op.ofCode (b : BitVec 6) : Option Op := Op.all.find? fun o => o.code == b

/-! ### Fields -/

/-- R65: the data-type indicator as bits. -/
def Datatype.bits : Datatype → BitVec 3
  | .hu => 0b000
  | .u => 0b001
  | .hi => 0b010
  | .i => 0b011
  | .f => 0b100
  | .d => 0b101
  | .bad6 => 0b110
  | .bad7 => 0b111

/-- R65: the data-type indicator read. -/
def Datatype.ofBits (b : BitVec 3) : Datatype :=
  match b.toNat with
  | 0 => .hu
  | 1 => .u
  | 2 => .hi
  | 3 => .i
  | 4 => .f
  | 5 => .d
  | 6 => .bad6
  | _ => .bad7

/-- R66, R67: a `<value>` operand from its indicator and its data. In Register mode `data[31:8]` is ignored (R69). -/
def Value.ofBits (ind : BitVec 2) (data : Half) : Value :=
  match ind.toNat with
  | 0 => .imm data
  | 1 => .reg (data.extractLsb' 0 8)
  | 2 => .mem data
  | _ => .ind (data.extractLsb' 0 8) (data.extractLsb' 8 24)

/-- R66, R67: an `<addr>` operand from its indicator and its data (D10: 0 is Memory, 1 is Register Indirect). -/
def Addr.ofBits (ind : BitVec 1) (data : Half) : Addr :=
  match ind.toNat with
  | 0 => .mem data
  | _ => .ind (data.extractLsb' 0 8) (data.extractLsb' 8 24)

/-- R61: the opcode field, W[5:0]. -/
def opField (w : Word) : BitVec 6 := w.extractLsb' 0 6

/-- R61: the conditional test, W[9:6]. -/
def testField (w : Word) : BitVec 4 := w.extractLsb' 6 4

/-- R65: the datatype field, W[12:10]. -/
def datatypeField (w : Word) : Datatype := Datatype.ofBits (w.extractLsb' 10 3)

/-- R66: a `<reg>` field, 8 bits from bit `lo`. -/
def regField (w : Word) (lo : Nat) : BitVec 8 := w.extractLsb' lo 8

/-- R68: a `<value>` field, the indicator at `lo` and 32 bits of data above it. -/
def valueField (w : Word) (lo : Nat) : Value := Value.ofBits (w.extractLsb' lo 2) (w.extractLsb' (lo + 2) 32)

/-- R68: an `<addr>` field, the indicator at `lo` and 32 bits of data above it. -/
def addrField (w : Word) (lo : Nat) : Addr := Addr.ofBits (w.extractLsb' lo 1) (w.extractLsb' (lo + 1) 32)

/-! ### The decoder -/

/-- R80: "unassigned opcode `op` with test `c`", what the decoder reads from a word whose opcode is 20 to 63. -/
structure UnassignedOpcode where
  op : BitVec 6
  c : BitVec 4
deriving DecidableEq, Repr

/-- R68: the fields of each format, extracted. -/
def decodeAs (w : Word) : Op → Instr
  | .nop => .nop
  | .load => .load (testField w) (regField w 10) (valueField w 18)
  | .loadu => .loadu (testField w) (regField w 10) (valueField w 18)
  | .store => .store (testField w) (regField w 10) (addrField w 18)
  | .add => .add (testField w) (datatypeField w) (regField w 13) (regField w 21) (valueField w 29)
  | .sub => .sub (testField w) (datatypeField w) (regField w 13) (regField w 21) (valueField w 29)
  | .mul => .mul (testField w) (datatypeField w) (regField w 13) (regField w 21) (valueField w 29)
  | .div => .div (testField w) (datatypeField w) (regField w 13) (regField w 21) (valueField w 29)
  | .mod => .mod (testField w) (regField w 10) (regField w 18) (valueField w 26)
  | .cmp => .cmp (testField w) (datatypeField w) (regField w 13) (valueField w 21)
  | .not => .not (testField w) (regField w 10) (regField w 18)
  | .and => .and (testField w) (regField w 10) (regField w 18) (valueField w 26)
  | .or => .or (testField w) (regField w 10) (regField w 18) (valueField w 26)
  | .xor => .xor (testField w) (regField w 10) (regField w 18) (valueField w 26)
  | .shr => .shr (testField w) (regField w 10) (regField w 18) (valueField w 26)
  | .shl => .shl (testField w) (regField w 10) (regField w 18) (valueField w 26)
  | .push => .push (testField w) (valueField w 10)
  | .call => .call (testField w) (addrField w 10)
  | .ret => .ret (testField w)
  | .syscall => .syscall (testField w) (valueField w 10)

/-- R80: decoding is total on words. -/
def decode (w : Word) : Except UnassignedOpcode Instr :=
  match Op.ofCode (opField w) with
  | some o => .ok (decodeAs w o)
  | none => .error ⟨opField w, testField w⟩

/-- Why a byte string is not an instruction. -/
inductive Reject where
  /-- Fewer than 8 bytes: an instruction is one 64-bit word (R60). -/
  | truncated
  /-- An opcode of 20 to 63 (R75). -/
  | unassigned (u : UnassignedOpcode)
deriving DecidableEq, Repr

/-- R60, R43: the word of 8 bytes, the first of which holds W[7:0], and the bytes after it. -/
def wordOfBytes : List Byte → Option (Word × List Byte)
  | b0 :: b1 :: b2 :: b3 :: b4 :: b5 :: b6 :: b7 :: rest =>
      some (b7 ++ b6 ++ b5 ++ b4 ++ b3 ++ b2 ++ b1 ++ b0, rest)
  | _ => none

/-- Decoding of bytes as memory holds them, total, with the bytes that follow. -/
def decodeBytes (bs : List Byte) : Except Reject (Instr × List Byte) :=
  match wordOfBytes bs with
  | none => .error .truncated
  | some (w, rest) =>
    match decode w with
    | .ok i => .ok (i, rest)
    | .error u => .error (.unassigned u)

/-! ### The encoder -/

/-- R66: the 2-bit indicator of a `<value>`. -/
def Value.indicator : Value → BitVec 2
  | .imm _ => 0b00
  | .reg _ => 0b01
  | .mem _ => 0b10
  | .ind _ _ => 0b11

/-- R67: the register number in the low byte of the data and the offset above it. -/
def indData (r : BitVec 8) (n : BitVec 24) : Half := r.setWidth 32 ||| n.setWidth 32 <<< 8

/-- R67: the 32 data bits of a `<value>`; bits it does not use are zero (R69). -/
def Value.data : Value → Half
  | .imm n => n
  | .reg r => indData r 0
  | .mem a => a
  | .ind r n => indData r n

/-- R66, D10: the 1-bit indicator of an `<addr>`. -/
def Addr.indicator : Addr → BitVec 1
  | .mem _ => 0b0
  | .ind _ _ => 0b1

/-- R67: the 32 data bits of an `<addr>`. -/
def Addr.data : Addr → Half
  | .mem a => a
  | .ind r n => indData r n

/-- A field at its place in an instruction word: bit 0 of the field is bit `lo` of the word. -/
def place (lo : Nat) {n : Nat} (field : BitVec n) : Word := field.setWidth 64 <<< lo

/-- R61: the header, opcode W[5:0] and conditional test W[9:6]. -/
def placeHeader (o : Op) (c : BitVec 4) : Word := place 0 o.code ||| place 6 c

/-- R68: a `<value>` from bit `lo`, the indicator low and the data above it. -/
def placeValue (lo : Nat) (v : Value) : Word := place lo v.indicator ||| place (lo + 2) v.data

/-- R68: an `<addr>` from bit `lo`, the indicator low and the data above it. -/
def placeAddr (lo : Nat) (a : Addr) : Word := place lo a.indicator ||| place (lo + 1) a.data

/-- R68, format `RV`: `reg` 17:10, `vind` 19:18, `vdata` 51:20. -/
def encodeRV (o : Op) (c : BitVec 4) (r : BitVec 8) (v : Value) : Word :=
  placeHeader o c ||| place 10 r ||| placeValue 18 v

/-- R68, format `RA`: `reg` 17:10, `aind` 18, `adata` 50:19. -/
def encodeRA (o : Op) (c : BitVec 4) (r : BitVec 8) (a : Addr) : Word :=
  placeHeader o c ||| place 10 r ||| placeAddr 18 a

/-- R68, format `TRRV`: `dt` 12:10, `reg1` 20:13, `reg2` 28:21, `vind` 30:29, `vdata` 62:31. -/
def encodeTRRV (o : Op) (c : BitVec 4) (t : Datatype) (r1 r2 : BitVec 8) (v : Value) : Word :=
  placeHeader o c ||| place 10 t.bits ||| place 13 r1 ||| place 21 r2 ||| placeValue 29 v

/-- R68, format `RRV`: `reg1` 17:10, `reg2` 25:18, `vind` 27:26, `vdata` 59:28. -/
def encodeRRV (o : Op) (c : BitVec 4) (r1 r2 : BitVec 8) (v : Value) : Word :=
  placeHeader o c ||| place 10 r1 ||| place 18 r2 ||| placeValue 26 v

/-- R68, format `TRV`: `dt` 12:10, `reg` 20:13, `vind` 22:21, `vdata` 54:23. -/
def encodeTRV (o : Op) (c : BitVec 4) (t : Datatype) (r : BitVec 8) (v : Value) : Word :=
  placeHeader o c ||| place 10 t.bits ||| place 13 r ||| placeValue 21 v

/-- R68, format `RR`: `reg1` 17:10, `reg2` 25:18. -/
def encodeRR (o : Op) (c : BitVec 4) (r1 r2 : BitVec 8) : Word :=
  placeHeader o c ||| place 10 r1 ||| place 18 r2

/-- R68, format `V`: `vind` 11:10, `vdata` 43:12. -/
def encodeV (o : Op) (c : BitVec 4) (v : Value) : Word := placeHeader o c ||| placeValue 10 v

/-- R68, format `A`: `aind` 10, `adata` 42:11. -/
def encodeA (o : Op) (c : BitVec 4) (a : Addr) : Word := placeHeader o c ||| placeAddr 10 a

/-- The word of an instruction, unused bits zero (R69); `nop` is the all-zero word (R74). -/
def encode : Instr → Word
  | .nop => 0
  | .load c r v => encodeRV .load c r v
  | .loadu c r v => encodeRV .loadu c r v
  | .store c r a => encodeRA .store c r a
  | .add c t r1 r2 v => encodeTRRV .add c t r1 r2 v
  | .sub c t r1 r2 v => encodeTRRV .sub c t r1 r2 v
  | .mul c t r1 r2 v => encodeTRRV .mul c t r1 r2 v
  | .div c t r1 r2 v => encodeTRRV .div c t r1 r2 v
  | .mod c r1 r2 v => encodeRRV .mod c r1 r2 v
  | .cmp c t r v => encodeTRV .cmp c t r v
  | .not c r1 r2 => encodeRR .not c r1 r2
  | .and c r1 r2 v => encodeRRV .and c r1 r2 v
  | .or c r1 r2 v => encodeRRV .or c r1 r2 v
  | .xor c r1 r2 v => encodeRRV .xor c r1 r2 v
  | .shr c r1 r2 v => encodeRRV .shr c r1 r2 v
  | .shl c r1 r2 v => encodeRRV .shl c r1 r2 v
  | .push c v => encodeV .push c v
  | .call c a => encodeA .call c a
  | .ret c => placeHeader .ret c
  | .syscall c v => encodeV .syscall c v

/-- R43: the 8 bytes of a word, lowest address first. -/
def wordBytes (w : Word) : List Byte :=
  [w.extractLsb' 0 8, w.extractLsb' 8 8, w.extractLsb' 16 8, w.extractLsb' 24 8,
   w.extractLsb' 32 8, w.extractLsb' 40 8, w.extractLsb' 48 8, w.extractLsb' 56 8]

/-- The host's table word as an instruction word: `nbits` bits of `w`, the bits above them zero. -/
def tableWord (nbits w : Nat) : Word := BitVec.ofNat 64 (w % 2 ^ nbits)

/-- The instruction the decoder reads from the bytes of a table word, laid out as memory holds them. -/
def decodeTableWord (nbits w : Nat) : Option Instr :=
  match decodeBytes (wordBytes (tableWord nbits w)) with
  | .ok (i, _) => some i
  | .error _ => none

end Sys2Proof
end

