-- ==== Sys2Proof/Config.lean ====
section
/-! DEFINITION. What an implementation fixes (spec/00_scope.md R3) and the free values.

The free values are constants WITHOUT A BODY: nothing in Lean can evaluate one or prove what it is, so a claim about the
machine holds for every choice of them. Those indexed by a number are applied to `State.draws`, a counter that every use
advances, so that no two uses are tied to each other (notes/assumptions/7.md). -/

namespace Sys2Proof

/-- The four outcomes of a comparison: equal, less, greater, unordered (R63, R107). -/
inductive Comparison where
  | eq
  | lt
  | gt
  | un
deriving DecidableEq, Repr, Inhabited

/-- R107: the record of total functions on bit patterns that stands for all floating-point behaviour. -/
structure FloatOps where
  add32 : Half → Half → Half
  sub32 : Half → Half → Half
  mul32 : Half → Half → Half
  add64 : Word → Word → Word
  sub64 : Word → Word → Word
  mul64 : Word → Word → Word
  div64 : Word → Word → Word
  f32to64 : Half → Word
  i32to64 : Half → Word
  i64to64 : Word → Word
  u64to64 : Word → Word
  cmp32 : Half → Half → Comparison
  cmp64 : Word → Word → Comparison
deriving Inhabited

/-- The floating-point behaviour of the hardware, of which nothing is assumed but that each result depends on the
operands alone (R107, U6; notes/assumptions/13.md). -/
opaque Config.floatOps : FloatOps

/-- U3, U4: the result of a shift by 64 or more and of a remainder by zero (notes/assumptions/10.md, 11.md). -/
opaque Config.freeWord : Nat → Word

/-- U7: the bytes that a `push` leaves unspecified (notes/assumptions/14.md). -/
opaque Config.freeByte : Nat → Byte

/-- U2: the result of a comparison test when `flag[2:0]` holds 100 or 101 (notes/assumptions/9.md). -/
opaque Config.freeBit : Nat → Bool

/-- R186 `Draw_64()`: what the host supplies to `read_int` and `read_double` (notes/assumptions/17.md). -/
opaque Config.drawWord : Nat → Word

/-- R186 `Draw_32()`: what the host supplies to `read_float`. -/
opaque Config.drawHalf : Nat → Half

/-- R186 `Draw_8()`: what the host supplies to `read_char`. -/
opaque Config.drawByte : Nat → Byte

/-- R186: the finite byte sequence the host supplies to `read_string`; the service drops its zero bytes, because a draw
is a sequence of non-zero bytes. -/
opaque Config.drawString : Nat → List Byte

/-- R3: the memory sizes the hardware may have, `MEM_SIZE` a multiple of 8 with 0x410 <= `MEM_SIZE` <= 2^32. -/
abbrev Config.legalMemSize (n : Nat) : Prop := n % 8 = 0 ∧ 0x410 ≤ n ∧ n ≤ 2 ^ 32

/-- DESIGN CHOICE: the memory size of `State.reset`, the one spec/95_test_vectors.md uses; the spec leaves `MEM_SIZE`
open (D4; notes/assumptions/1.md). Every other state carries its own size. -/
def Config.resetMemSize : Nat := 0x10000

end Sys2Proof
end

