-- ==== Sys2Proof/Machine/Memory.lean ====
section
/-! DEFINITION. Memory (spec/20_memory.md): one flat little-endian byte array of `size` bytes, held as sorted lists.

`cells` lists the bytes that differ from what an unlisted address reads as. `free` lists the addresses whose byte is
unspecified after a `push` (U7), each with the number of the free byte it holds, so that a memory with unspecified bytes
is still plain data that can be written out and compared (notes/assumptions/14.md). -/

namespace Sys2Proof.Machine

/-! ### Sorted lists of keys and values -/

/-- The value at a key. -/
def Assoc.find {α : Type} (k : Nat) : List (Nat × α) → Option α
  | [] => none
  | (a, v) :: rest => if a = k then some v else Assoc.find k rest

/-- No entry at a key. -/
def Assoc.erase {α : Type} (k : Nat) : List (Nat × α) → List (Nat × α)
  | [] => []
  | (a, v) :: rest => if a = k then Assoc.erase k rest else (a, v) :: Assoc.erase k rest

/-- The entry `(k, v)`, in its place. -/
def Assoc.insert {α : Type} (k : Nat) (v : α) : List (Nat × α) → List (Nat × α)
  | [] => [(k, v)]
  | (a, w) :: rest =>
    if k < a then (k, v) :: (a, w) :: rest
    else if a = k then (k, v) :: rest
    else (a, w) :: Assoc.insert k v rest

/-- Keys strictly rising. -/
abbrev Assoc.Rising {α : Type} (l : List (Nat × α)) : Prop := l.Pairwise fun p q => p.1 < q.1

/-! ### Bytes -/

/-- DESIGN CHOICE: what an address that nothing has written reads as. The spec leaves it open (R56, U12;
notes/assumptions/2.md); its test vectors take 0. -/
def unlistedByte : Byte := 0

/-- R33: the memory of the machine. -/
structure Memory where
  /-- `MEM_SIZE` (R3, R40); no step changes it -/
  size : Nat
  /-- the bytes that are not `unlistedByte`, addresses strictly rising -/
  cells : List Host.Cell
  /-- the unspecified bytes (U7): address and number of the free byte, addresses strictly rising -/
  free : List (Nat × Nat)
deriving DecidableEq, Repr

/-- A memory of `n` bytes that nothing has written. -/
def Memory.blank (n : Nat) : Memory := ⟨n, [], []⟩

/-- R48: the byte at an address, the one last written. -/
def Memory.byte (m : Memory) (a : Nat) : Byte :=
  match Assoc.find a m.free with
  | some k => Config.freeByte k
  | none => (Assoc.find a m.cells).getD unlistedByte

/-- R48: a write changes that byte alone. -/
def Memory.setByte (m : Memory) (a : Nat) (b : Byte) : Memory :=
  { m with
    cells := if b = unlistedByte then Assoc.erase a m.cells else Assoc.insert a b m.cells
    free := Assoc.erase a m.free }

/-- R130 `mem[a] <- UNSPECIFIED`: the byte is free byte number `k` until written again (U7). -/
def Memory.setFree (m : Memory) (a k : Nat) : Memory :=
  { m with cells := Assoc.erase a m.cells, free := Assoc.insert a k m.free }

/-- The canonical form: a legal size, addresses strictly rising and inside the memory, no entry equal to what an unlisted
address reads as, no address in both lists. -/
abbrev Memory.wf (m : Memory) : Prop :=
  Config.legalMemSize m.size ∧
  Assoc.Rising m.cells ∧ (∀ p ∈ m.cells, p.1 < m.size ∧ p.2 ≠ unlistedByte) ∧
  Assoc.Rising m.free ∧ (∀ p ∈ m.free, p.1 < m.size ∧ Assoc.find p.1 m.cells = none)

/-! ### Accesses of several bytes -/

/-- R43, R44: the `n` bytes from `a`, the byte at the lowest address lowest. -/
def Memory.loadLE (m : Memory) (a : Nat) : (n : Nat) → BitVec (8 * n)
  | 0 => 0#0
  | n + 1 => (Memory.loadLE m (a + 1) n ++ m.byte a : BitVec (8 * n + 8))

/-- R43, R44: `n` bytes stored from `a`, `v[7:0]` at the lowest address. -/
def Memory.storeLE (m : Memory) (a : Nat) : (n : Nat) → BitVec (8 * n) → Memory
  | 0, _ => m
  | n + 1, v => Memory.storeLE (m.setByte a (v.extractLsb' 0 8)) (a + 1) n (v.extractLsb' 8 (8 * n))

/-- R44: `InBounds(a, n)`, in unbounded integers. -/
abbrev Memory.InBounds (m : Memory) (a : Word) (n : Nat) : Prop := a.toNat + n ≤ m.size

end Sys2Proof.Machine
end

