-- ==== Sys2Proof/Machine/Registers.lean ====
section
/-! DEFINITION. The register numbers (spec/10_state.md R11, the spec's decision D7; notes/assumptions/20.md). -/

namespace Sys2Proof.Machine

/-- R10: there are 32 registers. -/
abbrev RegNo := Fin 32

/-- `$ip`, Instruction Pointer (R13). -/
abbrev Reg.ip : RegNo := 0

/-- `$sp`, Stack Pointer (R16). -/
abbrev Reg.sp : RegNo := 1

/-- `$fp`, Frame Pointer (R17). -/
abbrev Reg.fp : RegNo := 2

/-- `$flag`, Flag Register (R18). -/
abbrev Reg.flag : RegNo := 3

/-- `$isr`, Interrupt Service Register (R25). -/
abbrev Reg.isr : RegNo := 4

/-- `$imr`, Interrupt Mask Register (R26). -/
abbrev Reg.imr : RegNo := 5

/-- `$iip`, Interrupt IP (R27). -/
abbrev Reg.iip : RegNo := 6

/-- `$ret`, Return Value Register (R28). -/
abbrev Reg.ret : RegNo := 7

/-- `$k1`, Internal Register (R29). -/
abbrev Reg.k1 : RegNo := 8

/-- `$k2`, Internal Register (R29). -/
abbrev Reg.k2 : RegNo := 9

/-- `$r1`, general register (R30); `$r<k>` is number 9 + k. -/
abbrev Reg.r1 : RegNo := 10

/-- `$r2`, general register (R30). -/
abbrev Reg.r2 : RegNo := 11

/-- `$s1`, preserved register (R31); `$s<k>` is number 23 + k. -/
abbrev Reg.s1 : RegNo := 24

/-- `$s2`. -/
abbrev Reg.s2 : RegNo := 25

/-- `$s3`. -/
abbrev Reg.s3 : RegNo := 26

/-- `$s4`. -/
abbrev Reg.s4 : RegNo := 27

/-- `$s5`. -/
abbrev Reg.s5 : RegNo := 28

/-- `$s6`. -/
abbrev Reg.s6 : RegNo := 29

/-- `$s7`. -/
abbrev Reg.s7 : RegNo := 30

/-- `$s8`. -/
abbrev Reg.s8 : RegNo := 31

end Sys2Proof.Machine
end

