-- ==== Sys2Proof/Machine/State.lean ====
section
/-! DEFINITION. The state of the machine, all of it (spec/10_state.md), the reasons a step can stop, and reset. -/

namespace Sys2Proof.Machine

/-- R186: the events of the output trace, each with the raw bits the service read (U10; notes/assumptions/16.md). -/
inductive Event where
  | printInt (v : Word)
  | printFloat (v : Half)
  | printDouble (v : Word)
  | printChar (v : Byte)
  | printString (bytes : List Byte)
  | printRegs (regs : Vector Word 32)
  | printMem (start : Word) (bytes : List Byte)
  | printStack (bytes : List Byte)
deriving DecidableEq, Repr

/-- R171: the five errors, each with what it records in `$ret`. They are no stops of the model: `State.raise` takes them
(R172; notes/assumptions/5.md). -/
inductive Err where
  /-- 001: the opcode is 20 to 63 -/
  | invalidOpcode (op : BitVec 6)
  /-- 010: the address of the first byte of an access outside memory -/
  | segfault (a : Word)
  /-- 011: a register number of 32 or more -/
  | registerSegfault (r : BitVec 8)
  /-- 100: no service has this number -/
  | invalidSyscall (n : Word)
  /-- 101: a datatype field of 110 or 111 -/
  | invalidDatatype (dt : BitVec 3)
deriving DecidableEq, Repr

/-- The machine's faults. The errors of R171 are not among them: they are next states. -/
inductive Fault where
  /-- A conditional test of 0100, 0101, 1100 or 1101, which R75 calls reserved with unspecified result. Raised by every
  instruction but `nop`, and by an unassigned opcode, in `conditional`. Safe: the model stops where the hardware would
  execute the instruction or skip it (U1; notes/assumptions/8.md). -/
  | reservedTest (c : BitVec 4)
deriving DecidableEq, Repr

/-- The machine's refusals. -/
inductive Refusal where
  /-- An instruction without a meaning yet, refused in its arm of `exec`. Safe. No arm uses it: every instruction of
  the table has its meaning. -/
  | notModelled (mnemonic : String)
deriving DecidableEq, Repr

/-- The whole state (R10, R33, R34). -/
structure State where
  /-- R10: the 32 registers, `$ip` and `$flag` among them -/
  regs : Vector Word 32
  /-- R33: memory -/
  mem : Memory
  /-- R34, R186: the output trace, oldest event first -/
  trace : List Event
  /-- the model's own: how many free values and host inputs have been drawn (notes/assumptions/7.md) -/
  draws : Nat
deriving DecidableEq, Repr

/-- The outcome of a step of this machine. -/
abbrev Outcome := Host.Outcome State Fault Refusal

/-- R36: every register at its reset value but `$ip`, for a memory of `size` bytes. -/
def resetRegs (size : Nat) : Vector Word 32 :=
  ((((Vector.replicate 32 (0 : Word)).set Reg.sp (BitVec.ofNat 64 size)).set Reg.fp (BitVec.ofNat 64 size)).set
    Reg.flag 0x10).set Reg.imr 0xFFFFFFFFFFFFFFFF

/-- R190: reset, after the host has loaded `m`: `$ip` is the entry-point word at address 0x0. -/
def State.resetWith (m : Memory) : State where
  regs := (resetRegs m.size).set Reg.ip (m.loadLE 0 8)
  mem := m
  trace := []
  draws := 0

/-- The machine right after reset, with nothing loaded (notes/assumptions/1.md, 4.md). -/
def State.reset : State := State.resetWith (Memory.blank Config.resetMemSize)

end Sys2Proof.Machine
end

