-- ==== Sys2Proof/Machine/Flags.lean ====
section
/-! DEFINITION. The fields of `$flag` (spec/10_state.md R18 to R24) and the conditional test (spec/30_encoding.md R62, R63). -/

namespace Sys2Proof.Machine

/-! ### Bit fields of a word -/

/-- The word with bits `lo + n - 1` down to `lo` replaced by `v`; the other bits as they were. -/
def setField (w : Word) (lo : Nat) {n : Nat} (v : BitVec n) : Word :=
  (w &&& ~~~((BitVec.allOnes n).setWidth 64 <<< lo)) ||| (v.setWidth 64 <<< lo)

/-! ### The fields of `$flag` (R18) -/

/-- R19: the comparison bits, `flag[2:0]`. -/
def flagCmp (f : Word) : BitVec 3 := f.extractLsb' 0 3

/-- R20: the zero flag, `flag[3]`. -/
def flagZ (f : Word) : Bool := f.getLsbD 3

/-- R21: the execution status, `flag[4]`. -/
def flagExec (f : Word) : Bool := f.getLsbD 4

/-- R22: the error flag, `flag[7:5]`. -/
def flagErr (f : Word) : BitVec 3 := f.extractLsb' 5 3

/-- R23: the interrupt status, `flag[8]`. -/
def flagInInt (f : Word) : Bool := f.getLsbD 8

/-- `flag[2:0] <- v`. -/
def setCmp (f : Word) (v : BitVec 3) : Word := setField f 0 v

/-- `flag[3] <- z`. -/
def setZero (f : Word) (z : Bool) : Word := setField f 3 (BitVec.ofBool z)

/-- `flag[4] <- e`. -/
def setExec (f : Word) (e : Bool) : Word := setField f 4 (BitVec.ofBool e)

/-- `flag[7:5] <- v`. -/
def setErr (f : Word) (v : BitVec 3) : Word := setField f 5 v

/-- `flag[8] <- i`. -/
def setInInt (f : Word) (i : Bool) : Word := setField f 8 (BitVec.ofBool i)

/-! ### The conditional test -/

/-- R63, D18: the set of comparison outcomes a code is true of; 100 and 101 have none. -/
def relations (code : BitVec 3) : Option (List Comparison) :=
  match code.toNat with
  | 0 => some [.lt, .gt, .un]
  | 1 => some [.eq]
  | 2 => some [.lt]
  | 3 => some [.lt, .eq]
  | 6 => some [.gt]
  | 7 => some [.gt, .eq]
  | _ => none

/-- R63: `Match(t, s)` holds when what `$flag` records implies what the test asks; `none` where the result is
unspecified. -/
def matchCodes (t s : BitVec 3) : Option Bool :=
  match relations t, relations s with
  | some asked, some recorded => some (recorded.all fun o => asked.contains o)
  | _, _ => none

/-- What evaluating a conditional test comes to. -/
inductive TestResult where
  /-- the instruction executes -/
  | holds
  /-- the instruction is skipped (R64) -/
  | fails
  /-- the test is one of the four reserved codes (R75, U1) -/
  | reserved
  /-- the test is a comparison and `flag[2:0]` holds 100 or 101 (U2) -/
  | unspecified
deriving DecidableEq, Repr

/-- R63: the result of `Match` as that of the test. -/
def TestResult.ofMatch : Option Bool → TestResult
  | some true => .holds
  | some false => .fails
  | none => .unspecified

/-- R63: `CondHolds(c, flag)`. Bit 3 of `c` is not looked at on the comparison path (D19). -/
def evalTest (c : BitVec 4) (flag : Word) : TestResult :=
  if c = 0b1111 then .holds
  else if c = 0b1001 then (if flagZ flag then .holds else .fails)
  else if c = 0b1000 then (if flagZ flag then .fails else .holds)
  else if relations (c.extractLsb' 0 3) = none then .reserved
  else .ofMatch (matchCodes (c.extractLsb' 0 3) (flagCmp flag))

/-! ### The comparison bits `cmp` writes -/

/-- R19, R113: the code `cmp` writes for an outcome. -/
def Comparison.code : Comparison → BitVec 3
  | .eq => 0b001
  | .lt => 0b010
  | .gt => 0b110
  | .un => 0b000

/-- R113: exact integers compared; no wrap-around. -/
def compareInt (a b : Int) : Comparison := if a = b then .eq else if a < b then .lt else .gt

/-- R113: `flag[2:0]` from the outcome and `flag[3]` from the value operand's 32 bits; the other bits kept. -/
def cmpFlags (f : Word) (o : Comparison) (b : Half) : Word := setZero (setCmp f (Comparison.code o)) (b == 0)

end Sys2Proof.Machine
end

