-- ==== Sys2Proof/Machine/Ops.lean ====
section
/-! DEFINITION. The named operations over registers, memory, the trace and the draws, and the shared shapes of an instruction:
the conditional test around it, the error response, interrupt entry. -/

namespace Sys2Proof.Machine

/-! ### Registers -/

/-- R6 `x[i]`. -/
def State.reg (s : State) (r : RegNo) : Word := s.regs[r]

/-- R6 `x[i] <- v`; no register is hardwired (R12). -/
def State.setReg (s : State) (r : RegNo) (v : Word) : State := { s with regs := s.regs.set r v }

/-- R6 `flag`. -/
def State.flag (s : State) : Word := s.reg Reg.flag

/-- R20 `SetZ(v)`. -/
def State.setZ (s : State) (v : Word) : State := s.setReg Reg.flag (setZero s.flag (v == 0))

/-- R20: the destination write and then, as the last action, `SetZ` of the value written; so a destination `$flag` ends
with bit 3 replaced and a destination `$ip` is a jump. -/
def State.writeDest (s : State) (r : RegNo) (v : Word) : State := (s.setReg r v).setZ v

/-! ### Memory (R44) -/

/-- R44 `MemRead(a, n)`. -/
def State.memRead (s : State) (a : Word) (n : Nat) : Except Err (BitVec (8 * n)) :=
  if s.mem.InBounds a n then .ok (s.mem.loadLE a.toNat n) else .error (.segfault a)

/-- R44 `MemWrite(a, n, v)`. -/
def State.memWrite (s : State) (a : Word) (n : Nat) (v : BitVec (8 * n)) : Except Err State :=
  if s.mem.InBounds a n then .ok { s with mem := s.mem.storeLE a.toNat n v } else .error (.segfault a)

/-! ### The host (R186) -/

/-- R186 `Emit(e)`. -/
def State.emit (s : State) (e : Event) : State := { s with trace := s.trace ++ [e] }

/-- `n` free values or host inputs used up. -/
def State.drawn (s : State) (n : Nat) : State := { s with draws := s.draws + n }

/-! ### Errors: the one exception entry of the machine (R171, R172) -/

/-- R171: the code of an error in `flag[7:5]`. -/
def Err.code : Err → BitVec 3
  | .invalidOpcode _ => 0b001
  | .segfault _ => 0b010
  | .registerSegfault _ => 0b011
  | .invalidSyscall _ => 0b100
  | .invalidDatatype _ => 0b101

/-- R171: what an error records in `$ret`, in all 64 bits (R173). -/
def Err.info : Err → Word
  | .invalidOpcode op => op.setWidth 64
  | .segfault a => a
  | .registerSegfault r => r.setWidth 64
  | .invalidSyscall n => n
  | .invalidDatatype dt => dt.setWidth 64

/-- R172 `raise E(info)`: the code into `flag[7:5]`, the information into `$ret`, `flag[4]` cleared; all else as it was
before the instruction. There is no handler to return from. -/
def State.raise (s : State) (e : Err) : State :=
  (s.setReg Reg.flag (setExec (setErr s.flag e.code) false)).setReg Reg.ret e.info

/-- The state an instruction body ends in: its own, or the error response on the state it started from (R172). -/
def settle (s : State) : Except Err State → State
  | .ok t => t
  | .error e => s.raise e

/-- R63, R64, R76: an instruction under its conditional test. The test comes before every other check; a failing test
leaves the state as it is. A reserved test code is a fault (U1); a comparison test of a `flag[2:0]` without meaning
executes or skips as a free bit says (U2). -/
def conditional (c : BitVec 4) (s : State) (body : State → Except Err State) : Outcome :=
  match evalTest c s.flag with
  | .holds => .next (settle s (body s))
  | .fails => .next s
  | .reserved => .fault (.reservedTest c)
  | .unspecified =>
    .next (if Config.freeBit s.draws then settle (s.drawn 1) (body (s.drawn 1)) else s.drawn 1)

/-! ### The cycle's parts (R170) -/

/-- R21, R183: the processor runs while `flag[4]` is 1. -/
def State.running (s : State) : Bool := flagExec s.flag

/-- R178: the address interrupt entry jumps to, the constant 0x400 (C2; notes/assumptions/24.md). -/
def handlerOffset : Word := 0x400

/-- R177: at least one pending line is unmasked and `flag[8]` is 0. -/
def State.interruptDue (s : State) : Bool := s.reg Reg.isr &&& s.reg Reg.imr != 0 && !flagInInt s.flag

/-- R178: `x[$iip] <- pc; flag[8] <- 1; pc <- 0x400`. Nothing else is saved or changed. The return is the assembler's
`rti`, an `xor` of `$flag` and a `load` of `$ip` (R161, R179). -/
def State.takeInterrupt (s : State) : State :=
  ((s.setReg Reg.iip (s.reg Reg.ip)).setReg Reg.flag (setInInt s.flag true)).setReg Reg.ip handlerOffset

/-- R170 item 2. -/
def State.interruptCheck (s : State) : State := if s.interruptDue then s.takeInterrupt else s

/-- R14, R15: `pc <- pc + 8`, modulo 2^64. -/
def State.advance (s : State) : State := s.setReg Reg.ip (s.reg Reg.ip + 8)

/-- R53, R60: the fetch is an ordinary read of 8 bytes at `$ip`. -/
def State.fetch (s : State) : Except Err Word := s.memRead (s.reg Reg.ip) 8

end Sys2Proof.Machine
end

