-- ==== Sys2Proof/Machine/Operands.lean ====
section
/-! DEFINITION. Operand resolution (spec/30_encoding.md R70 to R72) and the reading of operands by datatype
(spec/41_arithmetic.md R100, R104). -/

namespace Sys2Proof.Machine

/-! ### Registers, values, addresses -/

/-- R70 `CheckReg(r)`. -/
def checkReg (r : BitVec 8) : Except Err RegNo :=
  if h : r.toNat < 32 then .ok ⟨r.toNat, h⟩ else .error (.registerSegfault r)

/-- R47, R70: `x[r] + sext_64(n)`, modulo 2^64. -/
def indirect (s : State) (r : RegNo) (n : BitVec 24) : Word := s.reg r + n.signExtend 64

/-- R70 `ResolveValue(ind, data)`. A memory operand is read as a whole word whatever the instruction uses of it (D16). -/
def resolveValue (s : State) : Value → Except Err Word
  | .imm n => .ok (n.setWidth 64)
  | .reg r => do
    let k ← checkReg r
    return s.reg k
  | .mem a => s.memRead (a.setWidth 64) 8
  | .ind r n => do
    let k ← checkReg r
    s.memRead (indirect s k n) 8

/-- R71 `EffAddr(ind, data)`. -/
def effAddr (s : State) : Addr → Except Err Word
  | .mem a => .ok (a.setWidth 64)
  | .ind r n => do
    let k ← checkReg r
    return indirect s k n

/-- R72, classes H and S: `V[31:0]`. -/
def lowHalf (w : Word) : Half := w.extractLsb' 0 32

/-- R65: 110 and 111 raise `InvalidDatatype`. -/
def checkDatatype (t : Datatype) : Except Err Unit :=
  if t.assigned then .ok () else .error (.invalidDatatype t.bits)

/-! ### Operands by datatype -/

/-- R107: the floating-point functions the instructions use. -/
def floatOps : FloatOps := Config.floatOps

/-- R100, `Interp`: the first operand as an integer, for the four integer datatypes. -/
def firstInt (t : Datatype) (a : Word) : Int :=
  match t with
  | .hu => (lowHalf a).toNat
  | .u => a.toNat
  | .hi => (lowHalf a).toInt
  | _ => a.toInt

/-- R100, `Pack`: an integer result as a word. -/
def packInt (t : Datatype) (r : Int) : Word :=
  match t with
  | .hu => (BitVec.ofInt 32 r).setWidth 64
  | .hi => (BitVec.ofInt 32 r).signExtend 64
  | _ => BitVec.ofInt 64 r

/-- R100, R101: a two-operand operation of the arithmetic family: exact integers, narrowed at the end; 32-bit floats;
or a double with a float widened to a double. The second operand is 32 bits, signed (D44). -/
def arith (fi : Int → Int → Int) (f32 : Half → Half → Half) (f64 : Word → Word → Word)
    (t : Datatype) (a : Word) (b : Half) : Word :=
  match t with
  | .f => (f32 (lowHalf a) b).setWidth 64
  | .d => f64 a (floatOps.f32to64 b)
  | t => packInt t (fi (firstInt t a) b.toInt)

/-- R104: the dividend as a double. -/
def dividend (t : Datatype) (a : Word) : Word :=
  match t with
  | .hu => floatOps.u64to64 ((lowHalf a).setWidth 64)
  | .u => floatOps.u64to64 a
  | .hi => floatOps.i64to64 ((lowHalf a).signExtend 64)
  | .f => floatOps.f32to64 (lowHalf a)
  | .d => a
  | _ => floatOps.i64to64 a

/-- R104: the divisor as a double. -/
def divisor (t : Datatype) (b : Half) : Word :=
  match t with
  | .f | .d => floatOps.f32to64 b
  | _ => floatOps.i32to64 b

/-- R113: the outcome of a comparison by datatype. -/
def compareAs (t : Datatype) (a : Word) (b : Half) : Comparison :=
  match t with
  | .f => floatOps.cmp32 (lowHalf a) b
  | .d => floatOps.cmp64 a (floatOps.f32to64 b)
  | t => compareInt (firstInt t a) b.toInt

/-! ### The shared bodies of the destination-writing instructions -/

/-- The checks and reads of a `<reg> <value>` instruction, in the order of R76: the register and then the value. -/
def withRegValue (s : State) (r : BitVec 8) (v : Value) (k : RegNo → Word → Except Err State) : Except Err State := do
  let d ← checkReg r
  let x ← resolveValue s v
  k d x

/-- The checks and reads of a `<reg> <reg> <value>` instruction, in the order of R76: the destination, the first source,
the value; `k` gets the destination, the first source's content and the value. -/
def withRegRegValue (s : State) (r1 r2 : BitVec 8) (v : Value) (k : RegNo → Word → Word → Except Err State) :
    Except Err State := do
  let d ← checkReg r1
  let a ← checkReg r2
  let x ← resolveValue s v
  k d (s.reg a) x

/-- R100: an arithmetic instruction with a datatype, whose check comes before the registers' (R76). -/
def arithBody (op : Datatype → Word → Half → Word) (t : Datatype) (r1 r2 : BitVec 8) (v : Value) (s : State) :
    Except Err State := do
  checkDatatype t
  withRegRegValue s r1 r2 v fun d a x => .ok (s.writeDest d (op t a (lowHalf x)))

/-- R126: what is common to the logical instructions with a value. -/
def logicBody (op : Word → Word → Word) (r1 r2 : BitVec 8) (v : Value) (s : State) : Except Err State :=
  withRegRegValue s r1 r2 v fun d a x => .ok (s.writeDest d (op a x))

end Sys2Proof.Machine
end

