-- ==== Sys2Proof/Machine/Arithmetic.lean ====
section
/-! DEFINITION. `add`, `sub`, `mul`, `div`, `mod` (spec/41_arithmetic.md R100 to R107). -/

namespace Sys2Proof.Machine

/-- R101: `A + B`, `add32`, `add64`. -/
def addOp : Datatype → Word → Half → Word := arith (· + ·) floatOps.add32 floatOps.add64

/-- R102: `A - B`, `sub32`, `sub64`. -/
def subOp : Datatype → Word → Half → Word := arith (· - ·) floatOps.sub32 floatOps.sub64

/-- R103: `A * B`, `mul32`, `mul64`. -/
def mulOp : Datatype → Word → Half → Word := arith (· * ·) floatOps.mul32 floatOps.mul64

/-- R104: both operands as doubles, divided; the result is a double whatever the datatype. -/
def divOp (t : Datatype) (a : Word) (b : Half) : Word := floatOps.div64 (dividend t a) (divisor t b)

/-- R101. -/
def execAdd (c : BitVec 4) (t : Datatype) (reg1 reg2 : BitVec 8) (v : Value) (s : State) : Outcome :=
  conditional c s (arithBody addOp t reg1 reg2 v)

/-- R102. -/
def execSub (c : BitVec 4) (t : Datatype) (reg1 reg2 : BitVec 8) (v : Value) (s : State) : Outcome :=
  conditional c s (arithBody subOp t reg1 reg2 v)

/-- R103. -/
def execMul (c : BitVec 4) (t : Datatype) (reg1 reg2 : BitVec 8) (v : Value) (s : State) : Outcome :=
  conditional c s (arithBody mulOp t reg1 reg2 v)

/-- R104. -/
def execDiv (c : BitVec 4) (t : Datatype) (reg1 reg2 : BitVec 8) (v : Value) (s : State) : Outcome :=
  conditional c s (arithBody divOp t reg1 reg2 v)

/-- R105: the remainder of the quotient rounded toward zero, for a divisor that is not zero. -/
def remainder (a : Word) (b : Half) : Word := BitVec.ofInt 64 (a.toInt.tmod b.toInt)

/-- R105. A zero divisor gives a free value, from which `Z` is computed like from any other (U4;
notes/assumptions/11.md). -/
def modBody (reg1 reg2 : BitVec 8) (v : Value) (s : State) : Except Err State :=
  withRegRegValue s reg1 reg2 v fun d a x =>
    if lowHalf x = 0 then .ok ((s.drawn 1).writeDest d (Config.freeWord s.draws))
    else .ok (s.writeDest d (remainder a (lowHalf x)))

/-- R105. -/
def execMod (c : BitVec 4) (reg1 reg2 : BitVec 8) (v : Value) (s : State) : Outcome :=
  conditional c s (modBody reg1 reg2 v)

end Sys2Proof.Machine
end

