-- ==== Sys2Proof/Machine/Compare.lean ====
section
/-! DEFINITION. `cmp` (spec/42_branching.md R113). The branches are `load`s of `$ip` (R114 to R116). -/

namespace Sys2Proof.Machine

/-- R113: `flag[2:0]` from the comparison, `flag[3]` from the value operand's 32 bits; no register is written. -/
def cmpBody (t : Datatype) (reg : BitVec 8) (v : Value) (s : State) : Except Err State := do
  checkDatatype t
  withRegValue s reg v fun d x =>
    .ok (s.setReg Reg.flag (cmpFlags s.flag (compareAs t (s.reg d) (lowHalf x)) (lowHalf x)))

/-- R113. -/
def execCmp (c : BitVec 4) (t : Datatype) (reg : BitVec 8) (v : Value) (s : State) : Outcome :=
  conditional c s (cmpBody t reg v)

end Sys2Proof.Machine
end

