-- ==== Sys2Proof/Machine/DataTransfer.lean ====
section
/-! DEFINITION. `load`, `loadu`, `store` (spec/40_data_transfer.md R90, R91, R94). -/

namespace Sys2Proof.Machine

/-- R90: `x[reg] <- V; SetZ(V)`, class W. -/
def loadBody (reg : BitVec 8) (v : Value) (s : State) : Except Err State :=
  withRegValue s reg v fun d x => .ok (s.writeDest d x)

/-- R90. -/
def execLoad (c : BitVec 4) (reg : BitVec 8) (v : Value) (s : State) : Outcome := conditional c s (loadBody reg v)

/-- R91: the new high half above the old low half. -/
def loadUpper (old : Word) (high : Half) : Word := setField old 32 high

/-- R91: `r = V[31:0] : x[reg][31:0]; x[reg] <- r; SetZ(r)`, class H. -/
def loaduBody (reg : BitVec 8) (v : Value) (s : State) : Except Err State :=
  withRegValue s reg v fun d x => .ok (s.writeDest d (loadUpper (s.reg d) (lowHalf x)))

/-- R91. -/
def execLoadu (c : BitVec 4) (reg : BitVec 8) (v : Value) (s : State) : Outcome := conditional c s (loaduBody reg v)

/-- R94: the whole register to memory; `Z` unchanged. -/
def storeBody (reg : BitVec 8) (a : Addr) (s : State) : Except Err State := do
  let r ← checkReg reg
  let t ← effAddr s a
  s.memWrite t 8 (s.reg r)

/-- R94. -/
def execStore (c : BitVec 4) (reg : BitVec 8) (a : Addr) (s : State) : Outcome := conditional c s (storeBody reg a)

end Sys2Proof.Machine
end

