-- ==== Sys2Proof/Machine/Functions.lean ====
section
/-! DEFINITION. `call` and `ret` (spec/45_functions.md R135 to R139). The frame is the layout of R137 (D29, U8;
notes/assumptions/15.md): 80 bytes, from low to high addresses `$s8` to `$s1`, the return address, the caller's `$fp`. -/

namespace Sys2Proof.Machine

/-- R135: the frame as memory, `low` = S - 80 its lowest address. -/
def frameMemory (s : State) (low : Nat) : Memory :=
  let m := s.mem.storeLE (low + 72) 8 (s.reg Reg.fp)
  let m := m.storeLE (low + 64) 8 (s.reg Reg.ip)
  let m := m.storeLE (low + 56) 8 (s.reg Reg.s1)
  let m := m.storeLE (low + 48) 8 (s.reg Reg.s2)
  let m := m.storeLE (low + 40) 8 (s.reg Reg.s3)
  let m := m.storeLE (low + 32) 8 (s.reg Reg.s4)
  let m := m.storeLE (low + 24) 8 (s.reg Reg.s5)
  let m := m.storeLE (low + 16) 8 (s.reg Reg.s6)
  let m := m.storeLE (low + 8) 8 (s.reg Reg.s7)
  m.storeLE low 8 (s.reg Reg.s8)

/-- R135: the target and the bounds of the frame are settled before anything is written; `$ip` is already the address of
the following instruction (R14). -/
def callBody (a : Addr) (s : State) : Except Err State := do
  let t ← effAddr s a
  let low := s.reg Reg.sp - 80
  if s.mem.InBounds low 80 then
    .ok ((({ s with mem := frameMemory s low.toNat }.setReg Reg.fp (s.reg Reg.sp - 8)).setReg Reg.sp low).setReg
      Reg.ip t)
  else .error (.segfault low)

/-- R135. -/
def execCall (c : BitVec 4) (a : Addr) (s : State) : Outcome := conditional c s (callBody a)

/-- R136: the frame found through `$fp`, all reads in the order written before any register is written; `$sp` ends above
the old `$fp`, the count word and the arguments. -/
def retBody (s : State) : Except Err State := do
  let f := s.reg Reg.fp
  let ofp ← s.memRead f 8
  let oip ← s.memRead (f - 8) 8
  let v1 ← s.memRead (f - 16) 8
  let v2 ← s.memRead (f - 24) 8
  let v3 ← s.memRead (f - 32) 8
  let v4 ← s.memRead (f - 40) 8
  let v5 ← s.memRead (f - 48) 8
  let v6 ← s.memRead (f - 56) 8
  let v7 ← s.memRead (f - 64) 8
  let v8 ← s.memRead (f - 72) 8
  let nb ← s.memRead (f + 8) 4
  let t := ((s.setReg Reg.ip oip).setReg Reg.fp ofp).setReg Reg.sp (f + 12 + BitVec.setWidth 64 nb)
  let t := (((t.setReg Reg.s1 v1).setReg Reg.s2 v2).setReg Reg.s3 v3).setReg Reg.s4 v4
  return (((t.setReg Reg.s5 v5).setReg Reg.s6 v6).setReg Reg.s7 v7).setReg Reg.s8 v8

/-- R136. -/
def execRet (c : BitVec 4) (s : State) : Outcome := conditional c s retBody

end Sys2Proof.Machine
end

