-- ==== Sys2Proof/Machine/Logical.lean ====
section
/-! DEFINITION. `not`, `and`, `or`, `xor`, `shr`, `shl` (spec/43_logical.md R120 to R126). -/

namespace Sys2Proof.Machine

/-- R120: all 64 bits inverted. -/
def notBody (reg1 reg2 : BitVec 8) (s : State) : Except Err State := do
  let d ← checkReg reg1
  let a ← checkReg reg2
  return s.writeDest d (~~~(s.reg a))

/-- R120. -/
def execNot (c : BitVec 4) (reg1 reg2 : BitVec 8) (s : State) : Outcome := conditional c s (notBody reg1 reg2)

/-- R121. -/
def execAnd (c : BitVec 4) (reg1 reg2 : BitVec 8) (v : Value) (s : State) : Outcome :=
  conditional c s (logicBody (· &&& ·) reg1 reg2 v)

/-- R122. -/
def execOr (c : BitVec 4) (reg1 reg2 : BitVec 8) (v : Value) (s : State) : Outcome :=
  conditional c s (logicBody (· ||| ·) reg1 reg2 v)

/-- R123. -/
def execXor (c : BitVec 4) (reg1 reg2 : BitVec 8) (v : Value) (s : State) : Outcome :=
  conditional c s (logicBody (· ^^^ ·) reg1 reg2 v)

/-- R124, R125: the amount is the whole 64-bit value, unsigned; for 64 or more the result is a free value, from which `Z`
is computed like from any other (U3; notes/assumptions/10.md). -/
def shiftBody (op : Word → Nat → Word) (r1 r2 : BitVec 8) (v : Value) (s : State) : Except Err State :=
  withRegRegValue s r1 r2 v fun d a x =>
    if x.toNat < 64 then .ok (s.writeDest d (op a x.toNat))
    else .ok ((s.drawn 1).writeDest d (Config.freeWord s.draws))

/-- R124: zeros enter at the top. -/
def execShr (c : BitVec 4) (reg1 reg2 : BitVec 8) (v : Value) (s : State) : Outcome :=
  conditional c s (shiftBody (fun a n => a >>> n) reg1 reg2 v)

/-- R125: zeros enter at the bottom. -/
def execShl (c : BitVec 4) (reg1 reg2 : BitVec 8) (v : Value) (s : State) : Outcome :=
  conditional c s (shiftBody (fun a n => a <<< n) reg1 reg2 v)

end Sys2Proof.Machine
end

