-- ==== Sys2Proof/Machine/Misc.lean ====
section
/-! DEFINITION. `nop` (spec/46_interrupts_misc.md R162) and the words with an unassigned opcode (spec/30_encoding.md R75). -/

namespace Sys2Proof.Machine

/-- R162: nothing; the conditional test is not applied and `$ip` has already advanced. -/
def execNop (s : State) : Outcome := .next s

/-- R75: an opcode of 20 to 63 under its conditional test, which comes first (R76). -/
def execUnassigned (u : UnassignedOpcode) (s : State) : Outcome :=
  conditional u.c s fun _ => .error (.invalidOpcode u.op)

end Sys2Proof.Machine
end

