-- ==== Sys2Proof/Machine/Services.lean ====
section
/-! DEFINITION. `syscall` and its fourteen services (spec/45_functions.md R140 to R155, spec/60_exceptions.md R186). -/

namespace Sys2Proof.Machine

/-- R140: the services of the system-call table. -/
inductive Service where
  | printInt | printFloat | printDouble | printChar | printString
  | readInt | readFloat | readDouble | readChar | readString
  | exit | printRegs | printMem | printStack
deriving DecidableEq, Repr

/-- R140, R155: the service of a number, the whole 64-bit value (D41). -/
def serviceOf (n : Word) : Option Service :=
  match n.toNat with
  | 1 => some .printInt
  | 2 => some .printFloat
  | 3 => some .printDouble
  | 4 => some .printChar
  | 5 => some .printString
  | 6 => some .readInt
  | 7 => some .readFloat
  | 8 => some .readDouble
  | 9 => some .readChar
  | 10 => some .readString
  | 11 => some .exit
  | 100 => some .printRegs
  | 101 => some .printMem
  | 102 => some .printStack
  | _ => none

/-- R145: the bytes from `a` to the first zero byte; `left` is the number of bytes from `a` to the end of memory, where a
string without a zero byte raises `Segfault`. -/
def stringFrom (m : Memory) (a : Nat) : (left : Nat) → Except Err (List Byte)
  | 0 => .error (.segfault (BitVec.ofNat 64 a))
  | n + 1 =>
    if m.byte a = 0 then .ok []
    else
      match stringFrom m (a + 1) n with
      | .ok bs => .ok (m.byte a :: bs)
      | .error e => .error e

/-- R145: the null-terminated string at `a`. -/
def cString (s : State) (a : Word) : Except Err (List Byte) := stringFrom s.mem a.toNat (s.mem.size - a.toNat)

/-- R153: `MemRead(a + j, 1)` for `n` values of `j` from 0, in order; the first byte outside memory raises `Segfault`. -/
def readBytes (s : State) (a : Word) : (n : Nat) → Except Err (List Byte)
  | 0 => .ok []
  | n + 1 =>
    match s.memRead a 1 with
    | .error e => .error e
    | .ok b =>
      match readBytes s (a + 1) n with
      | .ok bs => .ok (b :: bs)
      | .error e => .error e

/-- R150: bytes written one by one from `a`. A byte outside memory raises `Segfault` with its address, and the bytes before
it stay written: the one error with effects before it (R172). -/
def storeBytes (s : State) (a : Word) : List Byte → State
  | [] => s
  | b :: bs =>
    match s.memWrite a 1 b with
    | .ok t => storeBytes t (a + 1) bs
    | .error e => s.raise e

/-- R154: the bytes from the stack top to the top of memory; none when `x[$sp] >= MEM_SIZE`. -/
def stackBytes (s : State) : List Byte :=
  (List.range (s.mem.size - (s.reg Reg.sp).toNat)).map fun j => s.mem.byte ((s.reg Reg.sp).toNat + j)

/-- R150, R186: the sequence of non-zero bytes that draw number `k` supplies. -/
def inputString (k : Nat) : List Byte := (Config.drawString k).filter (· ≠ 0)

/-- R141 to R154: what each service does. No service touches `Z` or `CMP` (D17). -/
def serve (s : State) : Service → Except Err State
  | .printInt => .ok (s.emit (.printInt (s.reg Reg.r1)))
  | .printFloat => .ok (s.emit (.printFloat (lowHalf (s.reg Reg.r1))))
  | .printDouble => .ok (s.emit (.printDouble (s.reg Reg.r1)))
  | .printChar => .ok (s.emit (.printChar ((s.reg Reg.r1).extractLsb' 0 8)))
  | .printString => do
    let bs ← cString s (s.reg Reg.r1)
    return s.emit (.printString bs)
  | .readInt => .ok ((s.drawn 1).setReg Reg.ret (Config.drawWord s.draws))
  | .readFloat => .ok ((s.drawn 1).setReg Reg.ret ((Config.drawHalf s.draws).setWidth 64))
  | .readDouble => .ok ((s.drawn 1).setReg Reg.ret (Config.drawWord s.draws))
  | .readChar => .ok ((s.drawn 1).setReg Reg.ret ((Config.drawByte s.draws).setWidth 64))
  | .readString =>
    .ok (storeBytes (s.drawn 1) (s.reg Reg.r1) ((inputString s.draws).take (s.reg Reg.r2).toNat ++ [0]))
  | .exit => .ok (s.setReg Reg.flag (setExec s.flag false))
  | .printRegs => .ok (s.emit (.printRegs s.regs))
  | .printMem => do
    let bs ← readBytes s (s.reg Reg.r1) (s.reg Reg.r2).toNat
    return s.emit (.printMem (s.reg Reg.r1) bs)
  | .printStack => .ok (s.emit (.printStack (stackBytes s)))

/-- R140, R155: the operand, the number, the service. -/
def syscallBody (v : Value) (s : State) : Except Err State := do
  let n ← resolveValue s v
  match serviceOf n with
  | some svc => serve s svc
  | none => .error (.invalidSyscall n)

/-- R140. -/
def execSyscall (c : BitVec 4) (v : Value) (s : State) : Outcome := conditional c s (syscallBody v)

end Sys2Proof.Machine
end

