-- ==== Sys2Proof/Machine/Stack.lean ====
section
/-! DEFINITION. `push` (spec/44_stack.md R130). -/

namespace Sys2Proof.Machine

/-- R130: the memory after a push of `v` with old stack pointer `S`, at the address `slot` = S - 8: the value at S - 4, and
below it four free bytes, numbered from `k` (U7; notes/assumptions/14.md). -/
def pushMemory (m : Memory) (slot : Nat) (v : Half) (k : Nat) : Memory :=
  ((((m.storeLE (slot + 4) 4 v).setFree slot k).setFree (slot + 1) (k + 1)).setFree (slot + 2) (k + 2)).setFree
    (slot + 3) (k + 3)

/-- R130: the 8 bytes below `$sp` are bounds-checked, the low half of the value is pushed, `$sp` falls by 4. -/
def pushBody (v : Value) (s : State) : Except Err State := do
  let x ← resolveValue s v
  let slot := s.reg Reg.sp - 8
  if s.mem.InBounds slot 8 then
    .ok (({ s with mem := pushMemory s.mem slot.toNat (lowHalf x) s.draws }.drawn 4).setReg Reg.sp (s.reg Reg.sp - 4))
  else .error (.segfault slot)

/-- R130. -/
def execPush (c : BitVec 4) (v : Value) (s : State) : Outcome := conditional c s (pushBody v)

end Sys2Proof.Machine
end

