-- ==== Sys2Proof/Machine/Dispatch.lean ====
section
/-! DEFINITION. One arm per instruction. -/

namespace Sys2Proof.Machine

def exec (i : Instr) (s : State) : Host.Outcome State Fault Refusal :=
  match i with
  | .nop => Sys2Proof.Machine.execNop s
  | .load c reg v => Sys2Proof.Machine.execLoad c reg v s
  | .loadu c reg v => Sys2Proof.Machine.execLoadu c reg v s
  | .store c reg a => Sys2Proof.Machine.execStore c reg a s
  | .add c t reg1 reg2 v => Sys2Proof.Machine.execAdd c t reg1 reg2 v s
  | .sub c t reg1 reg2 v => Sys2Proof.Machine.execSub c t reg1 reg2 v s
  | .mul c t reg1 reg2 v => Sys2Proof.Machine.execMul c t reg1 reg2 v s
  | .div c t reg1 reg2 v => Sys2Proof.Machine.execDiv c t reg1 reg2 v s
  | .mod c reg1 reg2 v => Sys2Proof.Machine.execMod c reg1 reg2 v s
  | .cmp c t reg v => Sys2Proof.Machine.execCmp c t reg v s
  | .not c reg1 reg2 => Sys2Proof.Machine.execNot c reg1 reg2 s
  | .and c reg1 reg2 v => Sys2Proof.Machine.execAnd c reg1 reg2 v s
  | .or c reg1 reg2 v => Sys2Proof.Machine.execOr c reg1 reg2 v s
  | .xor c reg1 reg2 v => Sys2Proof.Machine.execXor c reg1 reg2 v s
  | .shr c reg1 reg2 v => Sys2Proof.Machine.execShr c reg1 reg2 v s
  | .shl c reg1 reg2 v => Sys2Proof.Machine.execShl c reg1 reg2 v s
  | .push c v => Sys2Proof.Machine.execPush c v s
  | .call c a => Sys2Proof.Machine.execCall c a s
  | .ret c => Sys2Proof.Machine.execRet c s
  | .syscall c v => Sys2Proof.Machine.execSyscall c v s

end Sys2Proof.Machine
end

