-- ==== Sys2Proof/Machine/Cycle.lean ====
section
/-! DEFINITION. The fetch-execute cycle (spec/60_exceptions.md R170). -/

namespace Sys2Proof.Machine

/-- R170 item 5: the fetched word, decoded and run, `$ip` already advanced. -/
def runWord (w : Word) (s : State) : Outcome :=
  match decode w with
  | .ok i => exec i s
  | .error u => execUnassigned u s

/-- R170 items 3 to 5: fetch at `$ip`, advance, run. A fetch outside memory raises `Segfault` with `$ip` not advanced. -/
def fetchAndRun (s : State) : Outcome :=
  match s.fetch with
  | .ok w => runWord w s.advance
  | .error e => .next (s.raise e)

/-- R170: one step. A halted processor takes none: the state stays as it is (R183; notes/assumptions/6.md). -/
def cycle (s : State) : Outcome := if s.running then fetchAndRun s.interruptCheck else .next s

/-- `RAM_BASE` (R3, D3). -/
def ramBase : Word := 0x10

/-- A state whose next step fetches from memory: running, and with `$ip` inside memory (moved to `ramBase` if it is not). A
state that is so already is not changed. -/
def State.readyToFetch (s : State) : State :=
  let s := if s.running then s else s.setReg Reg.flag (setExec s.flag true)
  if s.interruptDue || decide (s.mem.InBounds (s.reg Reg.ip) 8) then s else s.setReg Reg.ip ramBase

/-- The address the next step fetches from: the handler's when an interrupt is due (R178), else `$ip`. -/
def State.fetchAddress (s : State) : Word := s.interruptCheck.reg Reg.ip

/-- The word of an instruction stored where the next step fetches it (R43, R53, R191). -/
def State.placeWord (s : State) (w : Word) : State :=
  let s := s.readyToFetch
  { s with mem := s.mem.storeLE s.fetchAddress.toNat 8 w }

end Sys2Proof.Machine
end

