-- ==== Sys2Proof/Machine/Step.lean ====
section
/-! DEFINITION. One step of the machine, and the host's way of placing an instruction word. -/

namespace Sys2Proof.Machine

/-- R170: one step of the processor. -/
def step (s : State) : Host.Outcome State Fault Refusal := cycle s

/-- The state with the table word of an instruction where the next step fetches it; it stands for the host's load of a
program (R190, R191; notes/assumptions/4.md). -/
def State.withFetchWord (s : State) (nbits w : Nat) : State := s.placeWord (tableWord nbits w)

end Sys2Proof.Machine
end

