-- ==== Sys2Proof/Safety.lean ====
section
/-! DEFINITION. What claims about the machine are stated in: a legal state, halting, the exit code and the error of a halted
machine (spec/60_exceptions.md R172, R173, R183), the states a run reaches, and what a state shows of another: the same
registers, the same memory, a destination written, an error recorded. Each is said through the reads `State.reg` and
`Memory.byte` and the bits of `$flag`, not through the operations that write. -/

namespace Sys2Proof.Machine

/-! ### States -/

/-- The invariant of the machine: its memory has a legal size and is in canonical form. -/
abbrev State.legal (s : State) : Prop := s.mem.wf

/-- R183: halted, the end of a run. -/
def State.halted (s : State) : Bool := !s.running

/-- R183: the error flag the host reads at halt. -/
def State.errorCode (s : State) : BitVec 3 := flagErr s.flag

/-- R28, R173: the exit code the host reads at halt. -/
def State.exitCode (s : State) : Word := s.reg Reg.ret

/-- R173: halted with an error. -/
def State.failed (s : State) : Bool := s.halted && s.errorCode != 0

/-- The states that steps lead to from `s`. -/
inductive Reaches (s : State) : State → Prop
  | start : Reaches s s
  | next {t u : State} (h : Reaches s t) (hu : step t = .next u) : Reaches s u

/-! ### What one state shows of another -/

/-- The conditional test passes, so that the instruction executes (R63). -/
abbrev Passes (c : BitVec 4) (s : State) : Prop := evalTest c s.flag = .holds

/-- Every register but those listed is as before. -/
def SameRegs (s t : State) (except : List RegNo) : Prop := ∀ r, r ∉ except → t.reg r = s.reg r

/-- Every byte of memory is as before, and the memory has its size. -/
structure SameMemory (s t : State) : Prop where
  size : t.mem.size = s.mem.size
  bytes : ∀ a, t.mem.byte a = s.mem.byte a

/-- Every byte of memory outside the `n` bytes from `a` is as before, and the memory has its size. -/
structure SameMemoryOutside (s t : State) (a n : Nat) : Prop where
  size : t.mem.size = s.mem.size
  bytes : ∀ j, j < a ∨ a + n ≤ j → t.mem.byte j = s.mem.byte j

/-- R20: `v` written to the destination `d`, and `flag[3]` telling whether `v` is zero. A destination `$flag` takes the other
63 bits of `v`; any other destination leaves them. Nothing else changes. -/
structure DestWritten (s t : State) (d : RegNo) (v : Word) : Prop where
  dest : d ≠ Reg.flag → t.reg d = v
  flag : ∀ i, i < 64 →
    t.flag.getLsbD i = if i = 3 then (v == 0) else if d = Reg.flag then v.getLsbD i else s.flag.getLsbD i
  regs : SameRegs s t [d, Reg.flag]
  memory : SameMemory s t
  trace : t.trace = s.trace

/-- R172: the error recorded in `flag[7:5]` and `$ret`, and `flag[4]` cleared; every other bit of `$flag`, every other
register and the trace are as before. -/
structure ErrorRecorded (s t : State) (e : Err) : Prop where
  flag : ∀ i, i < 64 →
    t.flag.getLsbD i =
      if i = 4 then false else if 5 ≤ i ∧ i < 8 then e.code.getLsbD (i - 5) else s.flag.getLsbD i
  ret : t.reg Reg.ret = e.info
  regs : SameRegs s t [Reg.flag, Reg.ret]
  trace : t.trace = s.trace

/-- R172: an error taken, with no other effect. -/
structure Raised (s t : State) (e : Err) : Prop where
  record : ErrorRecorded s t e
  memory : SameMemory s t

/-- R186: one event appended to the trace, and nothing else changed. -/
structure OnlyEmits (s t : State) (e : Event) : Prop where
  trace : t.trace = s.trace ++ [e]
  regs : SameRegs s t []
  memory : SameMemory s t

/-- Only the registers listed may have changed. -/
structure OnlyRegs (s t : State) (changed : List RegNo) : Prop where
  regs : SameRegs s t changed
  memory : SameMemory s t
  trace : t.trace = s.trace

/-- The instruction answers a next state, and that state is as `P` says. -/
def RunsTo (i : Instr) (s : State) (P : State → Prop) : Prop := ∃ t, exec i s = .next t ∧ P t

/-! ### The checks of an instruction, in order (R76, R175), and then its effect -/

/-- `<reg> <value>`: the register, then the value; then the effect `P` on the register and the value. -/
def ChecksRegValue (i : Instr) (s : State) (r : BitVec 8) (v : Value) (P : RegNo → Word → State → Prop) : Prop :=
  (32 ≤ r.toNat → RunsTo i s fun t => Raised s t (.registerSegfault r)) ∧
  ∀ d : RegNo, r.toNat = d.val →
    (∀ e, resolveValue s v = .error e → RunsTo i s fun t => Raised s t e) ∧
    (∀ x, resolveValue s v = .ok x → RunsTo i s (P d x))

/-- `<reg> <reg> <value>`: the registers in order, then the value; then the effect `P` on the destination, the content of
the first source and the value. -/
def ChecksRegRegValue (i : Instr) (s : State) (r1 r2 : BitVec 8) (v : Value)
    (P : RegNo → Word → Word → State → Prop) : Prop :=
  (32 ≤ r1.toNat → RunsTo i s fun t => Raised s t (.registerSegfault r1)) ∧
  (r1.toNat < 32 → 32 ≤ r2.toNat → RunsTo i s fun t => Raised s t (.registerSegfault r2)) ∧
  ∀ d a : RegNo, r1.toNat = d.val → r2.toNat = a.val →
    (∀ e, resolveValue s v = .error e → RunsTo i s fun t => Raised s t e) ∧
    (∀ x, resolveValue s v = .ok x → RunsTo i s (P d (s.reg a) x))

/-- R100: the result of an integer or floating-point operation by datatype, in modular arithmetic: `op32` on the low half
of the first source for `hu` and `hi`, extended without or with sign; `op64` on all of it for `u` and `i`, the second
source sign-extended; the functions of `FloatOps` for `f` and `d`. -/
def arithResult (op32 : Half → Half → Half) (op64 : Word → Word → Word) (f32 : Half → Half → Half)
    (f64 : Word → Word → Word) (t : Datatype) (a : Word) (b : Half) : Word :=
  match t with
  | .hu => (op32 (a.extractLsb' 0 32) b).setWidth 64
  | .hi => (op32 (a.extractLsb' 0 32) b).signExtend 64
  | .f => (f32 (a.extractLsb' 0 32) b).setWidth 64
  | .d => f64 a (Config.floatOps.f32to64 b)
  | _ => op64 a (b.signExtend 64)

/-- R136: the reads of `ret`, address and width, in order. -/
def retReads (f : Word) : List (Word × Nat) :=
  [(f, 8), (f - 8, 8), (f - 16, 8), (f - 24, 8), (f - 32, 8), (f - 40, 8), (f - 48, 8), (f - 56, 8), (f - 64, 8),
   (f - 72, 8), (f + 8, 4)]

/-- R31: the preserved registers. -/
def savedRegs : List RegNo := [Reg.s1, Reg.s2, Reg.s3, Reg.s4, Reg.s5, Reg.s6, Reg.s7, Reg.s8]

/-- R69: the bits of a word that the decoder looks at, by format (R68). -/
def usedBits : Op → Word
  | .nop => 0x3F
  | .load | .loadu => 0x000FFFFFFFFFFFFF
  | .store => 0x0007FFFFFFFFFFFF
  | .add | .sub | .mul | .div => 0x7FFFFFFFFFFFFFFF
  | .mod | .and | .or | .xor | .shr | .shl => 0x0FFFFFFFFFFFFFFF
  | .cmp => 0x007FFFFFFFFFFFFF
  | .not => 0x0000000003FFFFFF
  | .push | .syscall => 0x00000FFFFFFFFFFF
  | .call => 0x000007FFFFFFFFFF
  | .ret => 0x3FF

end Sys2Proof.Machine
end

