-- ==== Sys2Proof/Certificates/Slice0/Obligations.lean ====
section
/-! DEFINITION. The statements for the provers. Each says in its docstring which rule of spec/ it rests on. A clause that
rests on a decision (D1 to D46 of spec/92_eei_decisions.md) or an inference the spec marks as its own names that mark; such a
statement has basis "derived". Three decisions recur: D17, when `Z` is written (`DestWritten`); D27, what an error does
(`Raised`, `ErrorRecorded`); D28, the order of an instruction's checks (`ChecksRegValue`, `ChecksRegRegValue`). -/

open Sys2Proof Sys2Proof.Machine

/-! ### Encoding -/

/-- R66 to R68, R73 (decisions D8 to D12): decoding the encoded word of any instruction gives the instruction back, every
operand at every value its field admits, well-formed or not. -/
def Obligations.DecodeOfEncodeIsTheInstruction : Prop :=
  ∀ i : Instr, decode (encode i) = .ok i

/-- R69 (decision D13): the decoder looks only at the used bits of a word's format, so two words that agree on them
decode alike. -/
def Obligations.UnusedBitsDoNotChangeDecoding : Prop :=
  ∀ (o : Op) (w w' : Word), opField w = o.code → w &&& usedBits o = w' &&& usedBits o → decode w = decode w'

/-- R69 (decision D13): in Register mode the upper 24 data bits are ignored; shown for every format that has a value. -/
def Obligations.RegisterModeIgnoresUpperData : Prop :=
  ∀ (w w' : Word) (lo : Nat), lo + 34 ≤ 64 →
    w.extractLsb' lo 2 = 1 → w'.extractLsb' lo 10 = w.extractLsb' lo 10 → valueField w' lo = valueField w lo

/-- R75, R80 [derived] (decision D8 numbers the opcodes): a word decodes to an instruction exactly when its opcode is
below 20, and otherwise to the unassigned opcode with its test. -/
def Obligations.DecodeIsTotalByOpcode : Prop :=
  ∀ w : Word,
    ((w.extractLsb' 0 6).toNat < 20 → ∃ i, decode w = .ok i ∧ i.op.code = w.extractLsb' 0 6) ∧
    (20 ≤ (w.extractLsb' 0 6).toNat → decode w = .error ⟨w.extractLsb' 0 6, w.extractLsb' 6 4⟩)

/-- R61, R65 to R68, R73 (decisions D7 to D12): words written out in spec/95_test_vectors.md decode to the instructions
they stand for, at least one of each family. -/
def Obligations.SpecWordsDecode : Prop :=
  decode 0x0000000000000000 = .ok .nop ∧
  decode 0x0000000000502FC1 = .ok (.load 15 11 (.imm 5)) ∧
  decode 0x0000000000B42BC2 = .ok (.loadu 15 10 (.reg 11)) ∧
  decode 0x0007FFFFC0142BC3 = .ok (.store 15 10 (.ind 2 (-8))) ∧
  decode 0x7FFFFFDA814147C4 = .ok (.add 15 .u 10 10 (.imm (-75))) ∧
  decode 0x0000000101418FC7 = .ok (.div 15 .i 12 10 (.imm 2)) ∧
  decode 0x00000000B42833C8 = .ok (.mod 15 12 10 (.reg 11)) ∧
  decode 0x001FE000000153C9 = .ok (.cmp 15 .f 10 (.imm 0x3FC00000)) ∧
  decode 0x0000000000282FCA = .ok (.not 15 11 10) ∧
  decode 0x00000000841013CC = .ok (.or 15 4 4 (.reg 8)) ∧
  decode 0x00000003F0282BCF = .ok (.shl 15 10 10 (.imm 63)) ∧
  decode 0x0000000000200BD0 = .ok (.push 15 (.mem 0x200)) ∧
  decode 0x0000000000006FD1 = .ok (.call 15 (.ind 13 0)) ∧
  decode 0x0000000000000052 = .ok (.ret 1) ∧
  decode 0x000000000000A7D3 = .ok (.syscall 15 (.reg 10))

/-! ### The cycle -/

/-- R170 (decision D2 puts the advance before the execution): when the processor runs, no interrupt is due and the 8
bytes at `$ip` decode to an instruction, the step is that instruction on the state with `$ip` advanced by 8. -/
def Obligations.StepRunsTheDecodedInstruction : Prop :=
  ∀ (s : State) (i : Instr), flagExec s.flag = true → s.interruptDue = false →
    s.mem.InBounds (s.reg Reg.ip) 8 → decode (s.mem.loadLE (s.reg Reg.ip).toNat 8) = .ok i →
    step s = exec i (s.setReg Reg.ip (s.reg Reg.ip + 8))

/-- R75, R64 (decisions D27, D28): a fetched word with an unassigned opcode raises `InvalidOpcode` when its test holds
and is skipped when its test fails. -/
def Obligations.UnassignedOpcodeRaisesOrIsSkipped : Prop :=
  ∀ (s : State) (w : Word), s.running = true → s.interruptDue = false → s.fetch = .ok w →
    20 ≤ (w.extractLsb' 0 6).toNat →
    (Passes (w.extractLsb' 6 4) s →
      ∃ t, step s = .next t ∧ Raised s.advance t (.invalidOpcode (w.extractLsb' 0 6))) ∧
    (evalTest (w.extractLsb' 6 4) s.flag = .fails → step s = .next s.advance)

/-- R170 item 3, R172 (decision D27): a fetch that leaves memory raises `Segfault` at `$ip`, which is not advanced. -/
def Obligations.FetchOutsideMemoryRaisesSegfault : Prop :=
  ∀ s : State, s.running = true → s.interruptDue = false → ¬ s.mem.InBounds (s.reg Reg.ip) 8 →
    ∃ t, step s = .next t ∧ Raised s t (.segfault (s.reg Reg.ip))

/-- R178, R170: a due interrupt saves `$ip` in `$iip`, sets `flag[8]` and goes to 0x400, changing nothing else, and the
handler's first instruction runs in the same step (decisions D2, D40). -/
def Obligations.InterruptEntrySavesAndRunsTheHandler : Prop :=
  ∀ s : State, s.running = true → s.interruptDue = true →
    ∃ u : State, step s = step u ∧ u.running = true ∧ u.interruptDue = false ∧
      u.reg Reg.iip = s.reg Reg.ip ∧ u.reg Reg.ip = 0x400 ∧
      (∀ i, i < 64 → u.flag.getLsbD i = (if i = 8 then true else s.flag.getLsbD i)) ∧
      OnlyRegs s u [Reg.ip, Reg.flag, Reg.iip] ∧ u.draws = s.draws

/-- R177: an interrupt is due when some pending line is unmasked and `flag[8]` is 0. -/
def Obligations.InterruptIsDueWhenPendingAndUnmasked : Prop :=
  ∀ s : State, s.interruptDue = true ↔
    (∃ i, i < 64 ∧ (s.reg Reg.isr).getLsbD i = true ∧ (s.reg Reg.imr).getLsbD i = true) ∧
      s.flag.getLsbD 8 = false

/-- R183, R170 item 1 (decision D33): a halted processor stays as it is, whatever is pending: it reaches no other state.
That the halted step is a step to the same state, not a stop, is the model's choice (notes/assumptions/6.md). -/
def Obligations.HaltedProcessorStaysAsItIs : Prop :=
  ∀ s t : State, s.flag.getLsbD 4 = false → Reaches s t → t = s

/-- The model's own: from any state of a legal memory, running or not, the step after a table word is placed runs that
word (notes/assumptions/4.md). -/
def Obligations.PlacedWordIsTheNextToRun : Prop :=
  ∀ (s : State) (w : Nat), Config.legalMemSize s.mem.size →
    step (s.withFetchWord 64 w) = runWord (BitVec.ofNat 64 w) (s.withFetchWord 64 w).interruptCheck.advance

/-! ### The conditional test -/

/-- R63 (decision D18): the table of the match function, written out; rows are `flag[2:0]`, columns the tests `ne`,
`eq`, `lt`, `le`, `gt`, `ge`. -/
def Obligations.ConditionalTestTable : Prop :=
  ∀ f : Word,
    let row (l : List Bool) : Prop :=
      [0b0000#4, 0b0001#4, 0b0010#4, 0b0011#4, 0b0110#4, 0b0111#4].map (fun c => evalTest c f) =
        l.map fun b => if b then TestResult.holds else TestResult.fails
    (f.extractLsb' 0 3 = 0b000 → row [true, false, false, false, false, false]) ∧
    (f.extractLsb' 0 3 = 0b001 → row [false, true, false, true, false, true]) ∧
    (f.extractLsb' 0 3 = 0b010 → row [true, false, true, true, false, false]) ∧
    (f.extractLsb' 0 3 = 0b011 → row [false, false, false, true, false, false]) ∧
    (f.extractLsb' 0 3 = 0b110 → row [true, false, false, false, true, true]) ∧
    (f.extractLsb' 0 3 = 0b111 → row [false, false, false, false, false, true])

/-- R62, R63 (decision D19): 1111 skips the test, `z` and `nz` read `flag[3]`, and bit 3 of a code is not looked at
otherwise. -/
def Obligations.ZeroAndUnconditionalTests : Prop :=
  ∀ f : Word,
    evalTest 0b1111 f = .holds ∧
    evalTest 0b1001 f = (if f.getLsbD 3 then .holds else .fails) ∧
    evalTest 0b1000 f = (if f.getLsbD 3 then .fails else .holds) ∧
    evalTest 0b1010 f = evalTest 0b0010 f ∧ evalTest 0b1011 f = evalTest 0b0011 f ∧
    evalTest 0b1110 f = evalTest 0b0110 f

/-- R64 (decision D28): an instruction whose test fails changes nothing and raises nothing, whatever its operands. -/
def Obligations.SkippedInstructionChangesNothing : Prop :=
  ∀ (i : Instr) (c : BitVec 4) (s : State), i.test = some c → evalTest c s.flag = .fails → exec i s = .next s

/-- R75, U1 (decision D19): a reserved test stops every instruction that has a test (the stop is notes/assumptions/8.md).
That nothing else stops one is the model's choice, where U2, U3, U4 and U9 give the treatment `fault`: an error is a next
state (notes/assumptions/5.md), and the model goes on with a free value after a comparison bit pattern without meaning, a
shift by 64 or more and a remainder by zero (notes/assumptions/9.md, 10.md, 11.md). -/
def Obligations.OnlyReservedTestsStop : Prop :=
  ∀ (i : Instr) (s : State),
    (∀ c, i.test = some c → testReserved c = true → exec i s = .fault (.reservedTest c)) ∧
    ((∀ c, i.test = some c → testReserved c = false) → ∃ t, exec i s = .next t)

/-- R63, U2: where `flag[2:0]` is 100 or 101 a comparison test has an unspecified result: the instruction is skipped or
runs as it would without a test, one value drawn (notes/assumptions/9.md). -/
def Obligations.UnspecifiedTestSkipsOrRuns : Prop :=
  ∀ (i : Instr) (c : BitVec 4) (s : State), i.test = some c →
    c ∈ [0b0000#4, 0b0001#4, 0b0010#4, 0b0011#4, 0b0110#4, 0b0111#4, 0b1010#4, 0b1011#4, 0b1110#4] →
    flagCmp s.flag = 0b100 ∨ flagCmp s.flag = 0b101 →
    exec i s = .next (s.drawn 1) ∨ exec i s = exec (i.withTest 0b1111) (s.drawn 1)

/-! ### Memory and operands -/

/-- R44 (decisions D5, D46): a write in bounds is read back, little-endian, and changes no other byte; an access out of
bounds raises `Segfault` with the address of its first byte. -/
def Obligations.MemoryWriteIsReadBack : Prop :=
  ∀ (s : State) (a : Word) (n : Nat) (v : BitVec (8 * n)),
    (a.toNat + n ≤ s.mem.size → ∃ t, s.memWrite a n v = .ok t ∧ t.memRead a n = .ok v ∧
      (∀ k, k < n → t.mem.byte (a.toNat + k) = v.extractLsb' (8 * k) 8) ∧
      SameMemoryOutside s t a.toNat n ∧ SameRegs s t [] ∧ t.trace = s.trace) ∧
    (s.mem.size < a.toNat + n → s.memWrite a n v = .error (.segfault a) ∧ s.memRead a n = .error (.segfault a))

/-- R70 (decisions D12, D15, D16, D28): what each mode of a `<value>` gives: the zero-extended immediate, the register,
the 8 little-endian bytes at the address (R47; the offset is signed); and the errors, the register's before the
memory's. -/
def Obligations.ValueModesResolve : Prop :=
  ∀ s : State,
    (∀ n : Half, resolveValue s (.imm n) = .ok (n.setWidth 64)) ∧
    (∀ (r : BitVec 8) (k : RegNo), r.toNat = k.val → resolveValue s (.reg r) = .ok (s.reg k)) ∧
    (∀ r : BitVec 8, 32 ≤ r.toNat → resolveValue s (.reg r) = .error (.registerSegfault r) ∧
      ∀ n, resolveValue s (.ind r n) = .error (.registerSegfault r)) ∧
    (∀ (v : Value) (a : Word),
      (∃ m : Half, v = .mem m ∧ a = m.setWidth 64) ∨
        (∃ (r : BitVec 8) (n : BitVec 24) (k : RegNo), v = .ind r n ∧ r.toNat = k.val ∧
          a = s.reg k + n.signExtend 64) →
      (a.toNat + 8 ≤ s.mem.size → ∃ x, resolveValue s v = .ok x ∧
        ∀ j, j < 8 → x.extractLsb' (8 * j) 8 = s.mem.byte (a.toNat + j)) ∧
      (s.mem.size < a.toNat + 8 → resolveValue s v = .error (.segfault a)))

/-- R71 (decision D12 makes the offset signed; notes/assumptions/20.md): an `<addr>` denotes the address, and only its
base register can be in error. -/
def Obligations.AddressModesResolve : Prop :=
  ∀ s : State,
    (∀ m : Half, effAddr s (.mem m) = .ok (m.setWidth 64)) ∧
    (∀ (r : BitVec 8) (n : BitVec 24) (k : RegNo), r.toNat = k.val →
      effAddr s (.ind r n) = .ok (s.reg k + n.signExtend 64)) ∧
    (∀ (r : BitVec 8) (n : BitVec 24), 32 ≤ r.toNat → effAddr s (.ind r n) = .error (.registerSegfault r))

/-! ### Data transfer -/

/-- R74: `nop` is the all-zero word, every word whose opcode field is 0 is `nop`, and it has no effect, whatever its
test field holds; the advance of `$ip` is the cycle's. -/
def Obligations.NopIsOpcodeZeroAndChangesNothing : Prop :=
  encode .nop = 0 ∧ (∀ w : Word, w.extractLsb' 0 6 = 0 → decode w = .ok .nop) ∧ ∀ s : State, exec .nop s = .next s

/-- R90 (decisions D15, D17, D27, D28): `load` writes the whole value to the register and sets `Z` from it, and changes
nothing else. -/
def Obligations.LoadWritesTheValue : Prop :=
  ∀ (c : BitVec 4) (r : BitVec 8) (v : Value) (s : State), Passes c s →
    ChecksRegValue (.load c r v) s r v fun d x t => DestWritten s t d x

/-- R91 (decisions D15, D17, D27, D28): `loadu` puts the low half of the value above the register's old low half. -/
def Obligations.LoaduWritesTheUpperHalf : Prop :=
  ∀ (c : BitVec 4) (r : BitVec 8) (v : Value) (s : State), Passes c s →
    ChecksRegValue (.loadu c r v) s r v fun d x t =>
      ∃ w : Word, w.extractLsb' 32 32 = x.extractLsb' 0 32 ∧ w.extractLsb' 0 32 = (s.reg d).extractLsb' 0 32 ∧
        DestWritten s t d w

/-- R92 [derived] (decision D17): the two instructions of `loadw`, in two steps' order, leave the 64-bit immediate in
the register and `Z` telling whether it is zero. -/
def Obligations.LoadwLeavesTheImmediate : Prop :=
  ∀ (r : BitVec 8) (d : RegNo) (x : Word) (s : State), r.toNat = d.val → d ≠ Reg.ip → d ≠ Reg.flag →
    ∃ t u, exec (.load 15 r (.imm (x.extractLsb' 0 32))) s = .next t ∧
      exec (.loadu 15 r (.imm (x.extractLsb' 32 32))) t.advance = .next u ∧
      u.reg d = x ∧ u.flag.getLsbD 3 = (x == 0) ∧ OnlyRegs s u [d, Reg.flag, Reg.ip]

/-- R94 (decisions D5, D27, D28): `store` writes the whole register, little-endian, at the effective address, and
changes no other byte, no register and no flag; the errors are those of its operands and of the write. -/
def Obligations.StoreWritesTheRegister : Prop :=
  ∀ (c : BitVec 4) (r : BitVec 8) (a : Addr) (s : State), Passes c s →
    (32 ≤ r.toNat → RunsTo (.store c r a) s fun t => Raised s t (.registerSegfault r)) ∧
    ∀ k : RegNo, r.toNat = k.val →
      (∀ e, effAddr s a = .error e → RunsTo (.store c r a) s fun t => Raised s t e) ∧
      ∀ p, effAddr s a = .ok p →
        (s.mem.size < p.toNat + 8 → RunsTo (.store c r a) s fun t => Raised s t (.segfault p)) ∧
        (p.toNat + 8 ≤ s.mem.size → RunsTo (.store c r a) s fun t =>
          (∀ j, j < 8 → t.mem.byte (p.toNat + j) = (s.reg k).extractLsb' (8 * j) 8) ∧
          SameMemoryOutside s t p.toNat 8 ∧ SameRegs s t [] ∧ t.trace = s.trace)

/-- R53 (decision D35): a stored word is what the next fetch from its address reads. -/
def Obligations.FetchSeesTheStore : Prop :=
  ∀ (c : BitVec 4) (r : BitVec 8) (a : Addr) (k : RegNo) (p : Word) (s : State), Passes c s → r.toNat = k.val →
    effAddr s a = .ok p → p.toNat + 8 ≤ s.mem.size →
    ∃ t, exec (.store c r a) s = .next t ∧ (t.setReg Reg.ip p).fetch = .ok (s.reg k)

/-! ### Arithmetic -/

/-- R101 to R103, R100: `add`, `sub` and `mul` in modular arithmetic by datatype, with the checks in the order of R76:
the datatype, the registers, the value (decisions D17, D21, D22, D27, D28, D44; the floating-point functions are any,
R107). -/
def Obligations.AddSubMulByDatatype : Prop :=
  ∀ (c : BitVec 4) (t : Datatype) (r1 r2 : BitVec 8) (v : Value) (s : State), Passes c s →
    ∀ p ∈ [(Instr.add c t r1 r2 v, arithResult (· + ·) (· + ·) Config.floatOps.add32 Config.floatOps.add64),
           (Instr.sub c t r1 r2 v, arithResult (· - ·) (· - ·) Config.floatOps.sub32 Config.floatOps.sub64),
           (Instr.mul c t r1 r2 v, arithResult (· * ·) (· * ·) Config.floatOps.mul32 Config.floatOps.mul64)],
      (t = .bad6 ∨ t = .bad7 → RunsTo p.1 s fun u => Raised s u (.invalidDatatype t.bits)) ∧
      (t ≠ .bad6 → t ≠ .bad7 →
        ChecksRegRegValue p.1 s r1 r2 v fun d a x u => DestWritten s u d (p.2 t a (x.extractLsb' 0 32)))

/-- R104 (decisions D17, D24, D27, D28): `div` converts both operands to double by the datatype and writes the double
quotient, with no error for a zero divisor. -/
def Obligations.DivWritesTheDoubleQuotient : Prop :=
  ∀ (c : BitVec 4) (t : Datatype) (r1 r2 : BitVec 8) (v : Value) (s : State), Passes c s →
    (t = .bad6 ∨ t = .bad7 → RunsTo (.div c t r1 r2 v) s fun u => Raised s u (.invalidDatatype t.bits)) ∧
    (t ≠ .bad6 → t ≠ .bad7 →
      ChecksRegRegValue (.div c t r1 r2 v) s r1 r2 v fun d a x u =>
        ∃ n m : Word, DestWritten s u d (Config.floatOps.div64 n m) ∧
          (t = .hu → n = Config.floatOps.u64to64 ((a.extractLsb' 0 32).setWidth 64)) ∧
          (t = .u → n = Config.floatOps.u64to64 a) ∧
          (t = .hi → n = Config.floatOps.i64to64 ((a.extractLsb' 0 32).signExtend 64)) ∧
          (t = .i → n = Config.floatOps.i64to64 a) ∧
          (t = .f → n = Config.floatOps.f32to64 (a.extractLsb' 0 32)) ∧
          (t = .d → n = a) ∧
          (t = .f ∨ t = .d → m = Config.floatOps.f32to64 (x.extractLsb' 0 32)) ∧
          (t ≠ .f → t ≠ .d → m = Config.floatOps.i32to64 (x.extractLsb' 0 32)))

/-- R105 (decisions D17, D25, D27, D28, D44): for a divisor that is not zero `mod` writes the remainder of the truncated
quotient: it differs from the dividend by a multiple of the divisor, is smaller than it in magnitude and has the
dividend's sign. For a zero divisor it writes some value, which nothing constrains (U4; notes/assumptions/11.md). -/
def Obligations.ModWritesTheTruncatedRemainder : Prop :=
  ∀ (c : BitVec 4) (r1 r2 : BitVec 8) (v : Value) (s : State), Passes c s →
    ChecksRegRegValue (.mod c r1 r2 v) s r1 r2 v fun d a x u =>
      ∃ r : Word, DestWritten s u d r ∧
        ((x.extractLsb' 0 32).toInt ≠ 0 →
          (∃ q : Int, a.toInt = q * (x.extractLsb' 0 32).toInt + r.toInt) ∧
          |r.toInt| < |(x.extractLsb' 0 32).toInt| ∧ (0 ≤ a.toInt → 0 ≤ r.toInt) ∧ (a.toInt ≤ 0 → r.toInt ≤ 0))

/-! ### Compare -/

/-- R113 (decisions D27, D28, D37, D38, D44): `cmp` writes `flag[2:0]` from the exact comparison of the operands by
datatype and `flag[3]` from the value's 32 bits, and changes nothing else. -/
def Obligations.CmpWritesTheComparisonBits : Prop :=
  ∀ (c : BitVec 4) (t : Datatype) (r : BitVec 8) (v : Value) (s : State), Passes c s →
    (t = .bad6 ∨ t = .bad7 → RunsTo (.cmp c t r v) s fun u => Raised s u (.invalidDatatype t.bits)) ∧
    (t ≠ .bad6 → t ≠ .bad7 →
      ChecksRegValue (.cmp c t r v) s r v fun d x u =>
        OnlyRegs s u [Reg.flag] ∧
        ∃ (code : BitVec 3) (A : Int),
          (∀ i, i < 64 → u.flag.getLsbD i =
            if i < 3 then code.getLsbD i else if i = 3 then x.extractLsb' 0 32 == 0 else s.flag.getLsbD i) ∧
          (t = .hu → A = ((s.reg d).extractLsb' 0 32).toNat) ∧ (t = .u → A = (s.reg d).toNat) ∧
          (t = .hi → A = ((s.reg d).extractLsb' 0 32).toInt) ∧ (t = .i → A = (s.reg d).toInt) ∧
          (t ≠ .f → t ≠ .d →
            (A = (x.extractLsb' 0 32).toInt → code = 0b001) ∧ (A < (x.extractLsb' 0 32).toInt → code = 0b010) ∧
            ((x.extractLsb' 0 32).toInt < A → code = 0b110)) ∧
          (∀ o : Comparison,
            (t = .f ∧ o = Config.floatOps.cmp32 ((s.reg d).extractLsb' 0 32) (x.extractLsb' 0 32)) ∨
              (t = .d ∧ o = Config.floatOps.cmp64 (s.reg d) (Config.floatOps.f32to64 (x.extractLsb' 0 32))) →
            (o = .eq → code = 0b001) ∧ (o = .lt → code = 0b010) ∧ (o = .gt → code = 0b110) ∧
              (o = .un → code = 0b000)))

/-- R113 with R63: after an integer `cmp` of A with B, the tests `eq`, `ne`, `lt`, `le`, `gt`, `ge` hold exactly when A
stands so to B, and otherwise fail (decisions D18, D37). -/
def Obligations.TestsAfterCmpAgreeWithTheOrder : Prop :=
  ∀ (t : Datatype) (r : BitVec 8) (d : RegNo) (v : Value) (x : Word) (s : State) (A B : Int),
    r.toNat = d.val → resolveValue s v = .ok x → B = (x.extractLsb' 0 32).toInt →
    (t = .hu ∧ A = ((s.reg d).extractLsb' 0 32).toNat) ∨ (t = .u ∧ A = (s.reg d).toNat) ∨
      (t = .hi ∧ A = ((s.reg d).extractLsb' 0 32).toInt) ∨ (t = .i ∧ A = (s.reg d).toInt) →
    ∃ u, exec (.cmp 15 t r v) s = .next u ∧
      ∀ p ∈ [(0b0001#4, decide (A = B)), (0b0000#4, decide (A ≠ B)), (0b0010#4, decide (A < B)),
             (0b0011#4, decide (A ≤ B)), (0b0110#4, decide (B < A)), (0b0111#4, decide (B ≤ A))],
        evalTest p.1 u.flag = if p.2 then .holds else .fails

/-! ### Logical -/

/-- R120 (decisions D17, D27, D28): `not` writes the register inverted; the errors are those of its two registers, in
order. -/
def Obligations.NotWritesTheInverse : Prop :=
  ∀ (c : BitVec 4) (r1 r2 : BitVec 8) (s : State), Passes c s →
    (32 ≤ r1.toNat → RunsTo (.not c r1 r2) s fun t => Raised s t (.registerSegfault r1)) ∧
    (r1.toNat < 32 → 32 ≤ r2.toNat → RunsTo (.not c r1 r2) s fun t => Raised s t (.registerSegfault r2)) ∧
    (∀ d a : RegNo, r1.toNat = d.val → r2.toNat = a.val →
      RunsTo (.not c r1 r2) s fun t => ∃ w : Word, (∀ i, i < 64 → w.getLsbD i = !(s.reg a).getLsbD i) ∧
        DestWritten s t d w)

/-- R121 to R123, R126 (decisions D15, D17, D27, D28): `and`, `or`, `xor` write the bitwise result of the full 64-bit
operands, an immediate zero-extended. -/
def Obligations.AndOrXorWriteTheBitwiseResult : Prop :=
  ∀ (c : BitVec 4) (r1 r2 : BitVec 8) (v : Value) (s : State), Passes c s →
    ∀ p ∈ [(Instr.and c r1 r2 v, and), (Instr.or c r1 r2 v, or), (Instr.xor c r1 r2 v, xor)],
      ChecksRegRegValue p.1 s r1 r2 v fun d a x t =>
        ∃ w : Word, (∀ i, i < 64 → w.getLsbD i = p.2 (a.getLsbD i) (x.getLsbD i)) ∧ DestWritten s t d w

/-- R124, R125 (decisions D15, D17, D26, D27, D28): a shift by n <= 63 divides by 2^n rounding down, or multiplies by
2^n modulo 2^64; by 64 or more it writes some value, which nothing constrains (U3; notes/assumptions/10.md). -/
def Obligations.ShiftsWriteTheShiftedValue : Prop :=
  ∀ (c : BitVec 4) (r1 r2 : BitVec 8) (v : Value) (s : State), Passes c s →
    ∀ p ∈ [(Instr.shr c r1 r2 v, fun a n : Nat => a / 2 ^ n), (Instr.shl c r1 r2 v, fun a n => a * 2 ^ n % 2 ^ 64)],
      ChecksRegRegValue p.1 s r1 r2 v fun d a x t =>
        ∃ w : Word, (x.toNat < 64 → w.toNat = p.2 a.toNat x.toNat) ∧ DestWritten s t d w

/-! ### Stack and functions -/

/-- R130 (decisions D17, D27, D30): `push` writes the low half of the value in the 4 bytes below the old `$sp`, lowers
`$sp` by 4 and leaves every byte outside the 8 below the old `$sp`, every other register and the flags as they were; the
8 bytes are bounds-checked, and the lower 4 of them are unspecified afterwards (U7). -/
def Obligations.PushWritesBelowTheStackPointer : Prop :=
  ∀ (c : BitVec 4) (v : Value) (s : State), Passes c s → s.mem.size ≤ 2 ^ 32 →
    (∀ e, resolveValue s v = .error e → RunsTo (.push c v) s fun t => Raised s t e) ∧
    ∀ x, resolveValue s v = .ok x →
      (s.mem.size < (s.reg Reg.sp - 8).toNat + 8 →
        RunsTo (.push c v) s fun t => Raised s t (.segfault (s.reg Reg.sp - 8))) ∧
      ((s.reg Reg.sp - 8).toNat + 8 ≤ s.mem.size →
        RunsTo (.push c v) s fun t =>
          t.reg Reg.sp = s.reg Reg.sp - 4 ∧ SameRegs s t [Reg.sp] ∧ t.trace = s.trace ∧
          (∀ j, j < 4 → t.mem.byte ((s.reg Reg.sp - 4).toNat + j) = x.extractLsb' (8 * j) 8) ∧
          SameMemoryOutside s t (s.reg Reg.sp - 8).toNat 8)

/-- R135, R137 (decisions D17, D27, D29): `call` writes the 80-byte frame below `$sp`, moves `$fp` and `$sp`, jumps to
the effective address and changes nothing else; nothing is written when the base register or the frame is in error. -/
def Obligations.CallPushesTheFrameAndJumps : Prop :=
  ∀ (c : BitVec 4) (a : Addr) (s : State), Passes c s → s.mem.size ≤ 2 ^ 32 →
    (∀ e, effAddr s a = .error e → RunsTo (.call c a) s fun t => Raised s t e) ∧
    ∀ p, effAddr s a = .ok p →
      (s.mem.size < (s.reg Reg.sp - 80).toNat + 80 →
        RunsTo (.call c a) s fun t => Raised s t (.segfault (s.reg Reg.sp - 80))) ∧
      ((s.reg Reg.sp - 80).toNat + 80 ≤ s.mem.size →
        RunsTo (.call c a) s fun t =>
          t.reg Reg.ip = p ∧ t.reg Reg.fp = s.reg Reg.sp - 8 ∧ t.reg Reg.sp = s.reg Reg.sp - 80 ∧
          SameRegs s t [Reg.ip, Reg.fp, Reg.sp] ∧ t.trace = s.trace ∧
          t.memRead (s.reg Reg.sp - 8) 8 = .ok (s.reg Reg.fp) ∧
          t.memRead (s.reg Reg.sp - 16) 8 = .ok (s.reg Reg.ip) ∧
          (∀ k : Fin 8, t.memRead (s.reg Reg.sp - 24 - 8 * BitVec.ofNat 64 k.val) 8 =
            .ok (s.reg ⟨24 + k.val, by omega⟩)) ∧
          SameMemoryOutside s t (s.reg Reg.sp - 80).toNat 80)

/-- R136 (decisions D17, D27, D29): `ret` reads the frame through `$fp` and restores `$ip`, `$fp` and `$s1` to `$s8`
from it, and `$sp` above the count word and the arguments; nothing else changes. The first read out of bounds, in the
order of the rule, is the `Segfault` raised. -/
def Obligations.RetRestoresFromTheFrame : Prop :=
  ∀ (c : BitVec 4) (s : State), Passes c s →
    (∀ (before after : List (Word × Nat)) (a : Word) (n : Nat),
      retReads (s.reg Reg.fp) = before ++ (a, n) :: after → (∀ p ∈ before, p.1.toNat + p.2 ≤ s.mem.size) →
      s.mem.size < a.toNat + n → RunsTo (.ret c) s fun t => Raised s t (.segfault a)) ∧
    ((∀ p ∈ retReads (s.reg Reg.fp), p.1.toNat + p.2 ≤ s.mem.size) →
      RunsTo (.ret c) s fun t =>
        s.memRead (s.reg Reg.fp) 8 = .ok (t.reg Reg.fp) ∧
        s.memRead (s.reg Reg.fp - 8) 8 = .ok (t.reg Reg.ip) ∧
        (∀ k : Fin 8, s.memRead (s.reg Reg.fp - 16 - 8 * BitVec.ofNat 64 k.val) 8 =
          .ok (t.reg ⟨24 + k.val, by omega⟩)) ∧
        (∃ nb : Half, s.memRead (s.reg Reg.fp + 8) 4 = .ok nb ∧
          t.reg Reg.sp = s.reg Reg.fp + 12 + nb.setWidth 64) ∧
        OnlyRegs s t ([Reg.ip, Reg.sp, Reg.fp] ++ savedRegs))

/-- R135 to R138: `ret` undoes `call`. From any later state that has the callee's `$fp` and the bytes of the frame
unchanged, with a count word of nb bytes above the frame, `ret` goes back to the instruction after the `call` with the
caller's `$fp` and `$s1` to `$s8`, and `$sp` above the count word and the arguments (decision D29). -/
def Obligations.RetUndoesCall : Prop :=
  ∀ (c c' : BitVec 4) (a : Addr) (p : Word) (s t u : State) (nb : Half),
    Passes c s → s.mem.size ≤ 2 ^ 32 → effAddr s a = .ok p → (s.reg Reg.sp - 80).toNat + 80 ≤ s.mem.size →
    exec (.call c a) s = .next t →
    Passes c' u → u.reg Reg.fp = t.reg Reg.fp → u.mem.size = t.mem.size →
    (∀ j, (s.reg Reg.sp - 80).toNat ≤ j → j < (s.reg Reg.sp - 80).toNat + 80 → u.mem.byte j = t.mem.byte j) →
    u.memRead (s.reg Reg.sp) 4 = .ok nb →
    ∃ w, exec (.ret c') u = .next w ∧ w.reg Reg.ip = s.reg Reg.ip ∧ w.reg Reg.fp = s.reg Reg.fp ∧
      (∀ r ∈ savedRegs, w.reg r = s.reg r) ∧ w.reg Reg.sp = s.reg Reg.sp + 4 + nb.setWidth 64 ∧
      SameMemory u w

/-! ### System calls -/

/-- R140 to R144 (decisions D17, D34): `print_int`, `print_float`, `print_double` and `print_char` append one event with the
raw bits they read, and change nothing else. That an event is raw bits is the model's choice (notes/assumptions/16.md). -/
def Obligations.OutputServicesAppendOneEvent : Prop :=
  ∀ (c : BitVec 4) (v : Value) (s : State), Passes c s →
    ∀ p ∈ [((1 : Word), Event.printInt (s.reg Reg.r1)),
           (2, .printFloat ((s.reg Reg.r1).extractLsb' 0 32)),
           (3, .printDouble (s.reg Reg.r1)),
           (4, .printChar ((s.reg Reg.r1).extractLsb' 0 8))],
      resolveValue s v = .ok p.1 → RunsTo (.syscall c v) s fun t => OnlyEmits s t p.2

/-- R152 (decisions D2, D34): a step that runs `print_regs` appends one event with every register, `$ip` as the address of
the following instruction, and beyond the advance of `$ip` changes nothing else. That the event holds all registers with
`$ip` already advanced is the model's choice (notes/assumptions/16.md). -/
def Obligations.PrintRegsShowsEveryRegister : Prop :=
  ∀ (s : State) (c : BitVec 4) (v : Value), s.running = true → s.interruptDue = false →
    s.mem.InBounds (s.reg Reg.ip) 8 → decode (s.mem.loadLE (s.reg Reg.ip).toNat 8) = .ok (.syscall c v) →
    Passes c s → resolveValue (s.setReg Reg.ip (s.reg Reg.ip + 8)) v = .ok 100 →
    ∃ (t : State) (shown : Vector Word 32), step s = .next t ∧ shown[Reg.ip] = s.reg Reg.ip + 8 ∧
      (∀ r : RegNo, r ≠ Reg.ip → shown[r] = s.reg r) ∧
      t.trace = s.trace ++ [.printRegs shown] ∧ t.reg Reg.ip = s.reg Reg.ip + 8 ∧ SameRegs s t [Reg.ip] ∧ SameMemory s t

/-- R154 (decision D34): `print_stack` appends one event with the bytes from `$sp` to the top of memory, none where
`$sp` is not below the memory size, and changes nothing else. -/
def Obligations.PrintStackEmitsTheStack : Prop :=
  ∀ (c : BitVec 4) (v : Value) (s : State), Passes c s → resolveValue s v = .ok 102 →
    ∃ bs : List Byte, bs.length = s.mem.size - (s.reg Reg.sp).toNat ∧
      (∀ (j : Nat) (h : j < bs.length), bs[j] = s.mem.byte ((s.reg Reg.sp).toNat + j)) ∧
      RunsTo (.syscall c v) s fun t => OnlyEmits s t (.printStack bs)

/-- R145 (decision D27): `print_string` emits the bytes from `$r1` up to the first zero byte; without a zero byte before
the end of memory it raises `Segfault` at the end of memory (at `$r1` where that lies beyond) and emits nothing. -/
def Obligations.PrintStringStopsAtTheZeroByte : Prop :=
  ∀ (c : BitVec 4) (v : Value) (s : State), Passes c s → resolveValue s v = .ok 5 →
    (∀ bs : List Byte, (s.reg Reg.r1).toNat + bs.length < s.mem.size →
      (∀ (j : Nat) (h : j < bs.length), bs[j] ≠ 0 ∧ s.mem.byte ((s.reg Reg.r1).toNat + j) = bs[j]) →
      s.mem.byte ((s.reg Reg.r1).toNat + bs.length) = 0 →
      RunsTo (.syscall c v) s fun t => OnlyEmits s t (.printString bs)) ∧
    ((∀ j, (s.reg Reg.r1).toNat ≤ j → j < s.mem.size → s.mem.byte j ≠ 0) →
      RunsTo (.syscall c v) s fun t =>
        Raised s t (.segfault (BitVec.ofNat 64 (max (s.reg Reg.r1).toNat s.mem.size))))

/-- R153: `print_mem` emits the `$r2` bytes from `$r1` in order; where they do not all lie in memory it raises
`Segfault` at the first that does not and emits nothing (decisions D27, D34). -/
def Obligations.PrintMemEmitsTheSegment : Prop :=
  ∀ (c : BitVec 4) (v : Value) (s : State), Passes c s → resolveValue s v = .ok 101 → s.mem.size ≤ 2 ^ 32 →
    ((s.reg Reg.r2).toNat = 0 ∨ (s.reg Reg.r1).toNat + (s.reg Reg.r2).toNat ≤ s.mem.size →
      RunsTo (.syscall c v) s fun t => OnlyEmits s t (.printMem (s.reg Reg.r1)
        ((List.range (s.reg Reg.r2).toNat).map fun j => s.mem.byte ((s.reg Reg.r1).toNat + j)))) ∧
    ((s.reg Reg.r2).toNat ≠ 0 → s.mem.size < (s.reg Reg.r1).toNat + (s.reg Reg.r2).toNat →
      RunsTo (.syscall c v) s fun t =>
        Raised s t (.segfault (BitVec.ofNat 64 (max (s.reg Reg.r1).toNat s.mem.size))))

/-- R146 to R149 (decisions D17, D34): an input service writes a value of its width to `$ret`, zero-extended, and
changes nothing else; which value is the host's (R186), so the statement holds for whatever it is. -/
def Obligations.InputServicesWriteRet : Prop :=
  ∀ (c : BitVec 4) (v : Value) (s : State), Passes c s →
    ∀ p ∈ [((6 : Word), 64), (7, 32), (8, 64), (9, 8)],
      resolveValue s v = .ok p.1 →
      RunsTo (.syscall c v) s fun t => OnlyRegs s t [Reg.ret] ∧ (t.reg Reg.ret).toNat < 2 ^ p.2

/-- R150 (decisions D27, D34): `read_string` takes some sequence of non-zero bytes, cuts it to `$r2` bytes and writes it
and a zero byte from `$r1`. Where they fit nothing else changes; where they do not, the bytes inside memory are written
and the first outside raises `Segfault`. -/
def Obligations.ReadStringWritesATerminatedString : Prop :=
  ∀ (c : BitVec 4) (v : Value) (s : State), Passes c s → resolveValue s v = .ok 10 → s.mem.size ≤ 2 ^ 32 →
    ∃ bs : List Byte, (∀ b ∈ bs, b ≠ 0) ∧ bs.length ≤ (s.reg Reg.r2).toNat ∧
      RunsTo (.syscall c v) s fun t =>
        (∀ (j : Nat) (h : j < (bs ++ [0]).length), (s.reg Reg.r1).toNat + j < s.mem.size →
          t.mem.byte ((s.reg Reg.r1).toNat + j) = (bs ++ [0])[j]) ∧
        SameMemoryOutside s t (s.reg Reg.r1).toNat (bs.length + 1) ∧
        ((s.reg Reg.r1).toNat + bs.length < s.mem.size → SameRegs s t [] ∧ t.trace = s.trace) ∧
        (s.mem.size ≤ (s.reg Reg.r1).toNat + bs.length →
          ErrorRecorded s t (.segfault (BitVec.ofNat 64 (max (s.reg Reg.r1).toNat s.mem.size))))

/-- R151: `exit` clears `flag[4]` and changes nothing else, so the processor is halted with `$ret` as its exit code. -/
def Obligations.ExitHaltsTheProcessor : Prop :=
  ∀ (c : BitVec 4) (v : Value) (s : State), Passes c s → resolveValue s v = .ok 11 →
    RunsTo (.syscall c v) s fun t =>
      t.halted = true ∧ t.exitCode = s.reg Reg.ret ∧ OnlyRegs s t [Reg.flag] ∧
      ∀ i, i < 64 → t.flag.getLsbD i = if i = 4 then false else s.flag.getLsbD i

/-- R140, R155 (decisions D27, D41): a service number outside the table, all 64 bits of it, raises `InvalidSyscall`; an
operand in error raises that error. -/
def Obligations.UnknownServiceRaisesInvalidSyscall : Prop :=
  ∀ (c : BitVec 4) (v : Value) (s : State), Passes c s →
    (∀ e, resolveValue s v = .error e → RunsTo (.syscall c v) s fun t => Raised s t e) ∧
    (∀ n, resolveValue s v = .ok n → n.toNat = 0 ∨ (11 < n.toNat ∧ n.toNat < 100) ∨ 102 < n.toNat →
      RunsTo (.syscall c v) s fun t => Raised s t (.invalidSyscall n))

/-! ### Errors -/

/-- R171, the table's codes and its last column: the code and the recorded value of each error. -/
def Obligations.ErrorCodesAndRecordedValues : Prop :=
  ∀ (op : BitVec 6) (a n : Word) (r : BitVec 8) (dt : BitVec 3),
    ((Err.invalidOpcode op).code = 0b001 ∧ (Err.invalidOpcode op).info.toNat = op.toNat) ∧
    ((Err.segfault a).code = 0b010 ∧ (Err.segfault a).info = a) ∧
    ((Err.registerSegfault r).code = 0b011 ∧ (Err.registerSegfault r).info.toNat = r.toNat) ∧
    ((Err.invalidSyscall n).code = 0b100 ∧ (Err.invalidSyscall n).info = n) ∧
    ((Err.invalidDatatype dt).code = 0b101 ∧ (Err.invalidDatatype dt).info.toNat = dt.toNat)

/-- R172, R173 (decision D27): a state in which an error was taken is halted with that error's code in `flag[7:5]`, and
its exit code is the recorded value. That the halted machine's step answers the same state, not a stop, is the model's
choice (notes/assumptions/6.md). -/
def Obligations.AnErrorHaltsWithItsCode : Prop :=
  ∀ (s t : State) (e : Err), Raised s t e →
    t.failed = true ∧ t.errorCode = e.code ∧ t.exitCode = e.info ∧ step t = .next t

/-! ### Interrupt idioms -/

/-- R161 [derived] (decision D17): `rti`, in its two instructions: `flag[8]` is inverted, so cleared inside a handler and
set outside one, and control goes to `$iip`; only `$ip`, `flag[8]` and `Z` change. -/
def Obligations.RtiReturnsToIip : Prop :=
  ∀ s : State,
    ∃ t u, exec (.xor 15 3 3 (.imm 0x100)) s = .next t ∧ exec (.load 15 0 (.reg 6)) t.advance = .next u ∧
      u.reg Reg.ip = s.reg Reg.iip ∧ OnlyRegs s u [Reg.ip, Reg.flag] ∧
      ∀ i, i < 64 → u.flag.getLsbD i =
        if i = 8 then !s.flag.getLsbD 8 else if i = 3 then s.reg Reg.iip == 0 else s.flag.getLsbD i

/-- R160 [derived] (decision D17): the last instruction of `int` ORs the mask of `$k1` into `$isr`: pending lines stay, and
the mask's are added; `Z` tells whether the new `$isr` is zero, and nothing else changes. -/
def Obligations.IntRaisesTheMaskedLines : Prop :=
  ∀ s : State,
    RunsTo (.or 15 4 4 (.reg 8)) s fun t => OnlyRegs s t [Reg.isr, Reg.flag] ∧
      (∀ i, i < 64 → (t.reg Reg.isr).getLsbD i = ((s.reg Reg.isr).getLsbD i || (s.reg Reg.k1).getLsbD i)) ∧
      ∀ i, i < 64 → t.flag.getLsbD i = if i = 3 then t.reg Reg.isr == 0 else s.flag.getLsbD i

/-! ### The whole machine -/

/-- R12, R20, R28 and the rules of the instructions (decisions D17, D27, D29, D30): a register that an instruction
changes is its destination, or `$flag`, or `$ret`, or one that `push`, `call` or `ret` moves. -/
def Obligations.InstructionsChangeOnlyTheirRegisters : Prop :=
  ∀ (i : Instr) (s t : State), exec i s = .next t → ∀ r : RegNo, t.reg r ≠ s.reg r →
    r = Reg.flag ∨ r = Reg.ret ∨ (∃ d, i.dest = some d ∧ d.toNat = r.val) ∨
    (i.op = .push ∧ r = Reg.sp) ∨ (i.op = .call ∧ r ∈ [Reg.ip, Reg.sp, Reg.fp]) ∨
    (i.op = .ret ∧ r ∈ [Reg.ip, Reg.sp, Reg.fp] ++ savedRegs)

/-- R46, its list of writes: only `store`, `push`, `call` and `syscall` change memory. -/
def Obligations.OnlyStoringInstructionsChangeMemory : Prop :=
  ∀ (i : Instr) (s t : State), i.op ∉ [Op.store, .push, .call, .syscall] → exec i s = .next t →
    SameMemory s t ∧ (∀ a n, t.memRead a n = s.memRead a n)

/-- R34, R140, R186 (decision D34): only `syscall` appends to the trace, and no step takes an event from it. -/
def Obligations.TraceOnlyGrowsBySyscall : Prop :=
  (∀ (i : Instr) (s t : State), exec i s = .next t → i.op ≠ .syscall → t.trace = s.trace) ∧
  (∀ s t : State, step s = .next t → ∃ es, t.trace = s.trace ++ es ∧ es.length ≤ 1)

/-- R25, R176 (decision D32): the hardware neither raises nor clears an interrupt line: a step that changes `$isr` runs
an instruction whose destination register is `$isr`. -/
def Obligations.OnlyInstructionsChangeIsr : Prop :=
  ∀ s t : State, step s = .next t → t.reg Reg.isr ≠ s.reg Reg.isr →
    ∃ w i, s.interruptCheck.fetch = .ok w ∧ decode w = .ok i ∧ i.dest = some 4

/-- R14, R15 (decision D2): `$ip` after a step of an instruction that neither jumps nor errs is 8 further: an
instruction other than `call` and `ret` whose destination is not `$ip` leaves the advanced `$ip`. -/
def Obligations.IpMovesByEightUnlessWritten : Prop :=
  ∀ (s t : State) (i : Instr), s.running = true → s.interruptDue = false →
    s.mem.InBounds (s.reg Reg.ip) 8 → decode (s.mem.loadLE (s.reg Reg.ip).toNat 8) = .ok i →
    i.dest ≠ some 0 → i.op ≠ .call → i.op ≠ .ret → step s = .next t → t.reg Reg.ip = s.reg Reg.ip + 8

/-- R40, R44 and the model's canonical form of memory (notes/assumptions/14.md): a legal memory, of a legal size, in
canonical form, is kept by every step, and its size never changes. -/
def Obligations.StepKeepsTheStateLegal : Prop :=
  ∀ s t : State, s.legal → step s = .next t → t.legal ∧ t.mem.size = s.mem.size

/-- R36, R190 (decision D31, and notes/assumptions/1.md for the memory of `State.reset`): reset of a machine whose
loader left a legal memory is a legal state, and so is `State.reset`. -/
def Obligations.ResetIsLegal : Prop :=
  State.reset.legal ∧ ∀ m : Memory, m.wf → (State.resetWith m).legal

/-- R36, R190 (decision D31): every register after reset, the loader's memory as it is, the trace empty. -/
def Obligations.ResetLeavesTheValuesOfTheSpec : Prop :=
  ∀ m : Memory,
    let s := State.resetWith m
    s.mem = m ∧ s.trace = [] ∧ s.reg Reg.ip = m.loadLE 0 8 ∧
    s.reg Reg.sp = BitVec.ofNat 64 m.size ∧ s.reg Reg.fp = BitVec.ofNat 64 m.size ∧ s.flag = 0x10 ∧
    s.reg Reg.isr = 0 ∧ s.reg Reg.imr = BitVec.allOnes 64 ∧ s.reg Reg.iip = 0 ∧ s.reg Reg.ret = 0 ∧
    (∀ r : RegNo, 8 ≤ r.val → s.reg r = 0)

/-! ### The header -/

/-- R61: the header is common to every instruction: W[5:0] is its opcode, and W[9:6] the test against `$flag` by which it
is skipped, or executed as it would be without a test. -/
def Obligations.HeaderHoldsOpcodeAndTest : Prop :=
  ∀ (w : Word) (i : Instr) (s : State), decode w = .ok i →
    i.op.code = w.extractLsb' 0 6 ∧
    (evalTest (w.extractLsb' 6 4) s.flag = .fails → exec i s = .next s) ∧
    (evalTest (w.extractLsb' 6 4) s.flag = .holds → exec i s = exec (i.withTest 0b1111) s)
end

