-- ==== Sys2Proof/Laws/Flags.lean ====
section
/-! SUPPORT. What a field of `$flag` reads after each field write, and when a conditional test comes to what. -/

namespace Sys2Proof.Machine

/-- The one law of bit fields: the field's bits are the new ones, every other bit is as it was. -/
theorem getLsbD_setField (w : Word) (lo : Nat) {n : Nat} (v : BitVec n) (i : Nat) (h : lo + n ≤ 64) :
    (setField w lo v).getLsbD i = if lo ≤ i ∧ i < lo + n then v.getLsbD (i - lo) else w.getLsbD i := by
  by_cases hi : i < 64
  · simp only [setField, BitVec.getLsbD_or, BitVec.getLsbD_and, BitVec.getLsbD_not, BitVec.getLsbD_shiftLeft,
      BitVec.getLsbD_setWidth, BitVec.getLsbD_allOnes, hi, decide_true, Bool.true_and]
    by_cases h1 : i < lo
    · simp [h1, Nat.not_le.mpr h1]
    · have h1' : lo ≤ i := by omega
      have h64 : i - lo < 64 := by omega
      by_cases h2 : i < lo + n
      · have h3 : i - lo < n := by omega
        simp only [h1, h1', h2, h3, h64, decide_true, decide_false, Bool.not_false, Bool.true_and, Bool.not_true,
          Bool.and_false, Bool.false_or, and_self, if_true]
      · have h3 : ¬ (i - lo < n) := by omega
        simp only [h1, h2, h3, h64, decide_false, Bool.not_false, Bool.and_true, and_false, if_false,
          BitVec.getLsbD_of_ge v (i - lo) (by omega), Bool.and_false, Bool.or_false, decide_true]
  · rw [BitVec.getLsbD_of_ge _ _ (by omega), if_neg (by omega), BitVec.getLsbD_of_ge _ _ (by omega)]

theorem extract_setField_self (w : Word) (lo : Nat) {n : Nat} (v : BitVec n) (h : lo + n ≤ 64) :
    (setField w lo v).extractLsb' lo n = v := by
  apply BitVec.eq_of_getLsbD_eq
  intro i hi
  rw [BitVec.getLsbD_extractLsb', getLsbD_setField _ _ _ _ h]
  simp [hi]

theorem extract_setField_other (w : Word) (lo lo' n' : Nat) {n : Nat} (v : BitVec n) (h : lo + n ≤ 64)
    (hd : lo' + n' ≤ lo ∨ lo + n ≤ lo') : (setField w lo v).extractLsb' lo' n' = w.extractLsb' lo' n' := by
  apply BitVec.eq_of_getLsbD_eq
  intro i hi
  rw [BitVec.getLsbD_extractLsb', getLsbD_setField _ _ _ _ h, if_neg (by omega)]
  simp

/-! ### Bits of `$flag` after each field write -/

theorem getLsbD_setCmp (f : Word) (v : BitVec 3) (i : Nat) :
    (setCmp f v).getLsbD i = if i < 3 then v.getLsbD i else f.getLsbD i := by
  simp [setCmp, getLsbD_setField]

theorem getLsbD_setZero (f : Word) (z : Bool) (i : Nat) :
    (setZero f z).getLsbD i = if i = 3 then z else f.getLsbD i := by
  rw [setZero, getLsbD_setField _ _ _ _ (by omega)]
  by_cases h : i = 3
  · subst h; simp
  · rw [if_neg (by omega), if_neg h]

theorem getLsbD_setExec (f : Word) (e : Bool) (i : Nat) :
    (setExec f e).getLsbD i = if i = 4 then e else f.getLsbD i := by
  rw [setExec, getLsbD_setField _ _ _ _ (by omega)]
  by_cases h : i = 4
  · subst h; simp
  · rw [if_neg (by omega), if_neg h]

theorem getLsbD_setErr (f : Word) (v : BitVec 3) (i : Nat) :
    (setErr f v).getLsbD i = if 5 ≤ i ∧ i < 8 then v.getLsbD (i - 5) else f.getLsbD i := by
  simp [setErr, getLsbD_setField]

theorem getLsbD_setInInt (f : Word) (b : Bool) (i : Nat) :
    (setInInt f b).getLsbD i = if i = 8 then b else f.getLsbD i := by
  rw [setInInt, getLsbD_setField _ _ _ _ (by omega)]
  by_cases h : i = 8
  · subst h; simp
  · rw [if_neg (by omega), if_neg h]

theorem getLsbD_cmpFlags (f : Word) (o : Comparison) (b : Half) (i : Nat) :
    (cmpFlags f o b).getLsbD i =
      if i = 3 then (b == 0) else if i < 3 then (Comparison.code o).getLsbD i else f.getLsbD i := by
  simp [cmpFlags, getLsbD_setZero, getLsbD_setCmp]

@[simp] theorem flagExec_setExec (f : Word) (e : Bool) : flagExec (setExec f e) = e := by
  rw [flagExec, getLsbD_setExec, if_pos rfl]

@[simp] theorem flagInInt_setInInt (f : Word) (b : Bool) : flagInInt (setInInt f b) = b := by
  rw [flagInInt, getLsbD_setInInt, if_pos rfl]

@[simp] theorem flagExec_setInInt (f : Word) (b : Bool) : flagExec (setInInt f b) = flagExec f := by
  rw [flagExec, getLsbD_setInInt, if_neg (by omega), flagExec]

@[simp] theorem flagCmp_cmpFlags (f : Word) (o : Comparison) (b : Half) :
    flagCmp (cmpFlags f o b) = Comparison.code o := by
  apply BitVec.eq_of_getLsbD_eq
  intro i hi
  have h3 : i ≠ 3 := by omega
  simp [flagCmp, hi, getLsbD_cmpFlags, h3]

@[simp] theorem flagErr_setExec_setErr (f : Word) (v : BitVec 3) (e : Bool) :
    flagErr (setExec (setErr f v) e) = v := by
  apply BitVec.eq_of_getLsbD_eq
  intro i hi
  have h4 : 5 + i ≠ 4 := by omega
  have h5 : 5 + i < 8 := by omega
  simp [flagErr, hi, getLsbD_setExec, getLsbD_setErr, h4, h5]

/-! ### The conditional test -/

/-- R62: the test 1111 always holds. -/
@[simp] theorem evalTest_always (f : Word) : evalTest 0b1111 f = .holds := by simp [evalTest]

/-- R63: the comparison tests read `flag[2:0]` alone. -/
theorem evalTest_comparison (c : BitVec 4) (f : Word) (h1 : c ≠ 0b1111) (h2 : c ≠ 0b1001) (h3 : c ≠ 0b1000) :
    evalTest c f =
      if relations (c.extractLsb' 0 3) = none then .reserved
      else .ofMatch (matchCodes (c.extractLsb' 0 3) (flagCmp f)) := by
  unfold evalTest
  rw [if_neg h1, if_neg h2, if_neg h3]

/-- R75: the reserved tests are those with low bits 100 or 101. -/
theorem testReserved_iff (c : BitVec 4) : testReserved c = true ↔ relations (c.extractLsb' 0 3) = none := by
  revert c
  decide

/-- A test comes out reserved for the reserved codes and for no other, whatever `$flag` holds. -/
theorem evalTest_reserved_iff (c : BitVec 4) (f : Word) : evalTest c f = .reserved ↔ testReserved c = true := by
  by_cases h1 : c = 0b1111
  · subst h1
    simp [evalTest, testReserved]
  by_cases h2 : c = 0b1001
  · subst h2
    cases hz : flagZ f <;> simp [evalTest, testReserved, hz]
  by_cases h3 : c = 0b1000
  · subst h3
    cases hz : flagZ f <;> simp [evalTest, testReserved, hz]
  rw [evalTest_comparison c f h1 h2 h3, testReserved_iff]
  split
  · simp [*]
  · next h =>
    simp only [h, iff_false]
    cases matchCodes (c.extractLsb' 0 3) (flagCmp f) with
    | none => decide
    | some b => cases b <;> decide

end Sys2Proof.Machine
end

