-- ==== Sys2Proof/Laws/Memory.lean ====
section
/-! SUPPORT. The laws of memory: read after write, a write leaves every other byte alone, and every operation keeps the
canonical form. -/

namespace Sys2Proof.Machine

/-! ### Sorted lists -/

variable {α : Type}

theorem Assoc.find_erase (k j : Nat) (l : List (Nat × α)) :
    Assoc.find j (Assoc.erase k l) = if k = j then none else Assoc.find j l := by
  induction l with
  | nil => simp [Assoc.erase, Assoc.find]
  | cons p l ih =>
    obtain ⟨a, v⟩ := p
    by_cases h : a = k <;> by_cases h' : a = j <;> simp_all [Assoc.erase, Assoc.find]
    omega

theorem Assoc.find_insert (k j : Nat) (v : α) (l : List (Nat × α)) :
    Assoc.find j (Assoc.insert k v l) = if k = j then some v else Assoc.find j l := by
  induction l with
  | nil => simp [Assoc.insert, Assoc.find]
  | cons p l ih =>
    obtain ⟨a, w⟩ := p
    unfold Assoc.insert
    split
    · simp [Assoc.find]
    · split
      · next hk =>
        subst hk
        by_cases h : a = j <;> simp [Assoc.find, h]
      · by_cases h : k = j
        · subst h; simp_all [Assoc.find]
        · by_cases h' : a = j <;> simp_all [Assoc.find]

theorem Assoc.mem_erase {k : Nat} {p : Nat × α} {l : List (Nat × α)} (h : p ∈ Assoc.erase k l) :
    p ∈ l ∧ p.1 ≠ k := by
  induction l with
  | nil => simp [Assoc.erase] at h
  | cons q l ih =>
    obtain ⟨a, v⟩ := q
    by_cases ha : a = k
    · simp only [Assoc.erase, ha, if_true] at h
      exact ⟨List.mem_cons_of_mem _ (ih h).1, (ih h).2⟩
    · simp only [Assoc.erase, ha, if_false, List.mem_cons] at h
      rcases h with rfl | h
      · exact ⟨List.mem_cons_self, ha⟩
      · exact ⟨List.mem_cons_of_mem _ (ih h).1, (ih h).2⟩

theorem Assoc.mem_insert {k : Nat} {v : α} {p : Nat × α} {l : List (Nat × α)} (h : p ∈ Assoc.insert k v l) :
    p = (k, v) ∨ p ∈ l := by
  induction l with
  | nil => simpa [Assoc.insert] using h
  | cons q l ih =>
    obtain ⟨a, w⟩ := q
    unfold Assoc.insert at h
    split at h
    · simpa using h
    · split at h
      · simp only [List.mem_cons] at h ⊢
        tauto
      · simp only [List.mem_cons] at h ⊢
        rcases h with h | h
        · tauto
        · have := ih h; tauto

theorem Assoc.rising_erase (k : Nat) {l : List (Nat × α)} (h : Assoc.Rising l) : Assoc.Rising (Assoc.erase k l) := by
  induction l with
  | nil => simp [Assoc.erase]
  | cons p l ih =>
    obtain ⟨a, v⟩ := p
    rw [Assoc.Rising, List.pairwise_cons] at h
    by_cases ha : a = k
    · simpa [Assoc.erase, ha] using ih h.2
    · rw [Assoc.erase, if_neg ha, Assoc.Rising, List.pairwise_cons]
      exact ⟨fun q hq => h.1 q (Assoc.mem_erase hq).1, ih h.2⟩

theorem Assoc.rising_insert (k : Nat) (v : α) {l : List (Nat × α)} (h : Assoc.Rising l) :
    Assoc.Rising (Assoc.insert k v l) := by
  induction l with
  | nil => simp [Assoc.insert]
  | cons p l ih =>
    obtain ⟨a, w⟩ := p
    have hc := List.pairwise_cons.mp h
    unfold Assoc.insert
    split
    · next hk =>
      refine List.pairwise_cons.mpr ⟨fun q hq => ?_, h⟩
      rcases List.mem_cons.mp hq with rfl | hq
      · exact hk
      · have := hc.1 q hq; simp only at this ⊢; omega
    · split
      · next hk => subst hk; exact List.pairwise_cons.mpr hc
      · next h1 h2 =>
        refine List.pairwise_cons.mpr ⟨fun q hq => ?_, ih hc.2⟩
        rcases Assoc.mem_insert hq with rfl | hq
        · simp only; omega
        · exact hc.1 q hq

/-! ### Bytes -/

@[simp] theorem setByte_size (m : Memory) (a : Nat) (b : Byte) : (m.setByte a b).size = m.size := rfl

@[simp] theorem setFree_size (m : Memory) (a k : Nat) : (m.setFree a k).size = m.size := rfl

/-- Read after write of one byte, in any memory. -/
theorem byte_setByte (m : Memory) (a j : Nat) (b : Byte) :
    (m.setByte a b).byte j = if a = j then b else m.byte j := by
  unfold Memory.byte Memory.setByte
  simp only [Assoc.find_erase]
  by_cases h : a = j
  · subst h
    by_cases hb : b = unlistedByte
    · simp [hb, Assoc.find_erase]
    · simp [hb, Assoc.find_insert]
  · by_cases hb : b = unlistedByte
    · simp [hb, Assoc.find_erase, h]
    · simp [hb, Assoc.find_insert, h]

/-- An unspecified byte reads as its free byte, and the others as before. -/
theorem byte_setFree (m : Memory) (a k j : Nat) :
    (m.setFree a k).byte j = if a = j then Config.freeByte k else m.byte j := by
  unfold Memory.byte Memory.setFree
  simp only [Assoc.find_insert, Assoc.find_erase]
  by_cases h : a = j <;> simp [h]

theorem wf_setByte {m : Memory} (h : m.wf) {a : Nat} (b : Byte) (ha : a < m.size) : (m.setByte a b).wf := by
  obtain ⟨hs, hc, hcm, hf, hfm⟩ := h
  refine ⟨hs, ?_, ?_, Assoc.rising_erase _ hf, ?_⟩
  · unfold Memory.setByte
    split
    · exact Assoc.rising_erase _ hc
    · exact Assoc.rising_insert _ _ hc
  · intro p hp
    unfold Memory.setByte at hp
    split at hp
    · exact hcm p (Assoc.mem_erase hp).1
    · next hb =>
      rcases Assoc.mem_insert hp with rfl | hp
      · exact ⟨ha, hb⟩
      · exact hcm p hp
  · intro p hp
    have hp' := Assoc.mem_erase hp
    refine ⟨(hfm p hp'.1).1, ?_⟩
    unfold Memory.setByte
    have hne : ¬ a = p.1 := fun h => hp'.2 h.symm
    split
    · simp [Assoc.find_erase, (hfm p hp'.1).2]
    · simp [Assoc.find_insert, (hfm p hp'.1).2, hne]

theorem wf_setFree {m : Memory} (h : m.wf) {a : Nat} (k : Nat) (ha : a < m.size) : (m.setFree a k).wf := by
  obtain ⟨hs, hc, hcm, hf, hfm⟩ := h
  refine ⟨hs, Assoc.rising_erase _ hc, fun p hp => hcm p (Assoc.mem_erase hp).1, Assoc.rising_insert _ _ hf, ?_⟩
  intro p hp
  rcases Assoc.mem_insert hp with rfl | hp
  · exact ⟨ha, by simp [Memory.setFree, Assoc.find_erase]⟩
  · refine ⟨(hfm p hp).1, ?_⟩
    simp [Memory.setFree, Assoc.find_erase, (hfm p hp).2]

/-! ### Accesses of several bytes -/

@[simp] theorem storeLE_size (n : Nat) (m : Memory) (a : Nat) (v : BitVec (8 * n)) :
    (m.storeLE a n v).size = m.size := by
  induction n generalizing m a with
  | zero => rfl
  | succ n ih => rw [Memory.storeLE, ih, setByte_size]

/-- R44: a store changes its own bytes, little-endian, and no other. -/
theorem byte_storeLE (n : Nat) (m : Memory) (a j : Nat) (v : BitVec (8 * n)) :
    (m.storeLE a n v).byte j = if a ≤ j ∧ j < a + n then v.extractLsb' (8 * (j - a)) 8 else m.byte j := by
  induction n generalizing m a with
  | zero =>
    rw [if_neg (by omega)]
    rfl
  | succ n ih =>
    rw [Memory.storeLE, ih, byte_setByte]
    by_cases h1 : a + 1 ≤ j ∧ j < a + 1 + n
    · rw [if_pos h1, if_pos (by omega)]
      apply BitVec.eq_of_getLsbD_eq
      intro i hi
      have h2 : 8 * (j - (a + 1)) + i < 8 * n := by omega
      have h3 : 8 + (8 * (j - (a + 1)) + i) = 8 * (j - a) + i := by omega
      simp only [BitVec.getLsbD_extractLsb', hi, h2, h3, decide_true, Bool.true_and]
    · rw [if_neg h1]
      by_cases h2 : a = j
      · subst h2
        rw [if_pos rfl, if_pos (by omega), Nat.sub_self, Nat.mul_zero]
      · rw [if_neg h2, if_neg (by omega)]

/-- R44: a load takes its bytes little-endian. -/
theorem getLsbD_loadLE (n : Nat) (m : Memory) (a i : Nat) :
    (m.loadLE a n).getLsbD i = (decide (i < 8 * n) && (m.byte (a + i / 8)).getLsbD (i % 8)) := by
  induction n generalizing a i with
  | zero => simp [Memory.loadLE]
  | succ n ih =>
    rw [Memory.loadLE, BitVec.getLsbD_append]
    by_cases h : i < 8
    · have h1 : i / 8 = 0 := by omega
      have h2 : i % 8 = i := by omega
      have h3 : i < 8 * (n + 1) := by omega
      simp [h, h1, h2, h3]
    · have h1 : a + 1 + (i - 8) / 8 = a + i / 8 := by omega
      have h2 : (i - 8) % 8 = i % 8 := by omega
      have h3 : (i - 8 < 8 * n) = (i < 8 * (n + 1)) := by apply propext; omega
      rw [if_neg h, ih, h1, h2]
      simp only [h3]

/-- R44: byte `k` of a load is the byte at the `k`-th address. -/
theorem extract_loadLE (n : Nat) (m : Memory) (a k : Nat) (h : k < n) :
    (m.loadLE a n).extractLsb' (8 * k) 8 = m.byte (a + k) := by
  apply BitVec.eq_of_getLsbD_eq
  intro i hi
  have h1 : (8 * k + i) / 8 = k := by omega
  have h2 : (8 * k + i) % 8 = i := by omega
  have h3 : 8 * k + i < 8 * n := by omega
  simp only [BitVec.getLsbD_extractLsb', getLsbD_loadLE, hi, h1, h2, h3, decide_true, Bool.true_and]

/-- Loads of memories that agree on the bytes loaded agree. -/
theorem loadLE_congr {n : Nat} {m m' : Memory} {a : Nat} (h : ∀ j, a ≤ j → j < a + n → m.byte j = m'.byte j) :
    m.loadLE a n = m'.loadLE a n := by
  apply BitVec.eq_of_getLsbD_eq
  intro i hi
  rw [getLsbD_loadLE, getLsbD_loadLE, h (a + i / 8) (by omega) (by omega)]

/-- A load of one byte is the byte. -/
theorem loadLE_one (m : Memory) (a : Nat) : m.loadLE a 1 = m.byte a := by
  apply BitVec.eq_of_getLsbD_eq
  intro i hi
  have h1 : i / 8 = 0 := by omega
  have h2 : i % 8 = i := by omega
  rw [getLsbD_loadLE, h1, h2, decide_eq_true (by omega : i < 8 * 1), Bool.true_and, Nat.add_zero]

/-- R44, R50: a read returns what the write of the same bytes stored. -/
theorem loadLE_storeLE_self (n : Nat) (m : Memory) (a : Nat) (v : BitVec (8 * n)) :
    (m.storeLE a n v).loadLE a n = v := by
  apply BitVec.eq_of_getLsbD_eq
  intro i hi
  have h1 : i % 8 < 8 := by omega
  have h2 : 8 * (a + i / 8 - a) + i % 8 = i := by omega
  rw [getLsbD_loadLE, byte_storeLE, if_pos (by omega)]
  simp only [BitVec.getLsbD_extractLsb', hi, h1, h2, decide_true, Bool.true_and]

/-- R44: a read of bytes that a write does not touch is as before. -/
theorem loadLE_storeLE_disjoint (n k : Nat) (m : Memory) (a b : Nat) (v : BitVec (8 * k))
    (h : a + n ≤ b ∨ b + k ≤ a) : (m.storeLE b k v).loadLE a n = m.loadLE a n := by
  apply loadLE_congr
  intro j h1 h2
  rw [byte_storeLE, if_neg (by omega)]

theorem wf_storeLE (n : Nat) {m : Memory} (h : m.wf) {a : Nat} (v : BitVec (8 * n)) (ha : a + n ≤ m.size) :
    (m.storeLE a n v).wf := by
  induction n generalizing m a with
  | zero => exact h
  | succ n ih => exact ih (wf_setByte h _ (by omega)) _ (by rw [setByte_size]; omega)

theorem wf_blank {n : Nat} (h : Config.legalMemSize n) : (Memory.blank n).wf := by
  refine ⟨h, ?_, ?_, ?_, ?_⟩ <;> simp [Memory.blank]

end Sys2Proof.Machine
end

