-- ==== Sys2Proof/Laws/State.lean ====
section
/-! SUPPORT. One lemma per field of the state per update, and the register file's read-after-write law. -/

namespace Sys2Proof.Machine

/-! ### Registers -/

theorem reg_setReg (s : State) (r q : RegNo) (v : Word) :
    (s.setReg r v).reg q = if r = q then v else s.reg q := by
  simp [State.reg, State.setReg, Vector.getElem_set, Fin.ext_iff]

@[simp] theorem reg_setReg_self (s : State) (r : RegNo) (v : Word) : (s.setReg r v).reg r = v := by
  simp [reg_setReg]

theorem reg_setReg_ne (s : State) {r q : RegNo} (v : Word) (h : r ≠ q) : (s.setReg r v).reg q = s.reg q := by
  simp [reg_setReg, h]

@[simp] theorem setReg_mem (s : State) (r : RegNo) (v : Word) : (s.setReg r v).mem = s.mem := rfl

@[simp] theorem setReg_trace (s : State) (r : RegNo) (v : Word) : (s.setReg r v).trace = s.trace := rfl

@[simp] theorem setReg_draws (s : State) (r : RegNo) (v : Word) : (s.setReg r v).draws = s.draws := rfl

theorem flag_eq (s : State) : s.flag = s.reg Reg.flag := rfl

theorem flag_setReg (s : State) (r : RegNo) (v : Word) :
    (s.setReg r v).flag = if r = Reg.flag then v else s.flag := reg_setReg s r Reg.flag v

/-- Two register files with the same registers are the same. -/
theorem regs_ext {s t : State} (h : ∀ r, s.reg r = t.reg r) : s.regs = t.regs := by
  apply Vector.ext
  intro i hi
  exact h ⟨i, hi⟩

/-! ### Memory updates -/

@[simp] theorem withMem_reg (s : State) (m : Memory) (r : RegNo) : State.reg { s with mem := m } r = s.reg r := rfl

@[simp] theorem withMem_flag (s : State) (m : Memory) : State.flag { s with mem := m } = s.flag := rfl

@[simp] theorem withMem_trace (s : State) (m : Memory) : ({ s with mem := m } : State).trace = s.trace := rfl

@[simp] theorem withMem_draws (s : State) (m : Memory) : ({ s with mem := m } : State).draws = s.draws := rfl

@[simp] theorem withMem_mem (s : State) (m : Memory) : ({ s with mem := m } : State).mem = m := rfl

/-! ### The host -/

@[simp] theorem emit_reg (s : State) (e : Event) (r : RegNo) : (s.emit e).reg r = s.reg r := rfl

@[simp] theorem emit_flag (s : State) (e : Event) : (s.emit e).flag = s.flag := rfl

@[simp] theorem emit_mem (s : State) (e : Event) : (s.emit e).mem = s.mem := rfl

@[simp] theorem emit_trace (s : State) (e : Event) : (s.emit e).trace = s.trace ++ [e] := rfl

@[simp] theorem emit_draws (s : State) (e : Event) : (s.emit e).draws = s.draws := rfl

@[simp] theorem drawn_reg (s : State) (n : Nat) (r : RegNo) : (s.drawn n).reg r = s.reg r := rfl

@[simp] theorem drawn_regs (s : State) (n : Nat) : (s.drawn n).regs = s.regs := rfl

@[simp] theorem drawn_flag (s : State) (n : Nat) : (s.drawn n).flag = s.flag := rfl

@[simp] theorem drawn_mem (s : State) (n : Nat) : (s.drawn n).mem = s.mem := rfl

@[simp] theorem drawn_trace (s : State) (n : Nat) : (s.drawn n).trace = s.trace := rfl

@[simp] theorem drawn_draws (s : State) (n : Nat) : (s.drawn n).draws = s.draws + n := rfl

end Sys2Proof.Machine
end

