-- ==== Sys2Proof/Laws/Ops.lean ====
section
/-! SUPPORT. One lemma per shared operation that says everything it can do. -/

namespace Sys2Proof.Machine

/-! ### Relations between states -/

theorem SameMemory.refl (s : State) : SameMemory s s := ⟨rfl, fun _ => rfl⟩

theorem SameMemory.of_eq {s t : State} (h : t.mem = s.mem) : SameMemory s t :=
  ⟨by rw [h], fun _ => by rw [h]⟩

theorem SameRegs.refl (s : State) (l : List RegNo) : SameRegs s s l := fun _ _ => rfl

/-- A write to a listed register keeps the others. -/
theorem SameRegs.setReg {s t : State} {l : List RegNo} (h : SameRegs s t l) {r : RegNo} (hr : r ∈ l) (v : Word) :
    SameRegs s (t.setReg r v) l := by
  intro q hq
  have hne : r ≠ q := by
    rintro rfl
    exact hq hr
  rw [reg_setReg_ne t v hne, h q hq]

/-! ### Destination writes -/

@[simp] theorem writeDest_mem (s : State) (d : RegNo) (v : Word) : (s.writeDest d v).mem = s.mem := rfl

@[simp] theorem writeDest_trace (s : State) (d : RegNo) (v : Word) : (s.writeDest d v).trace = s.trace := rfl

@[simp] theorem writeDest_draws (s : State) (d : RegNo) (v : Word) : (s.writeDest d v).draws = s.draws := rfl

theorem writeDest_flag (s : State) (d : RegNo) (v : Word) :
    (s.writeDest d v).flag = setZero (if d = Reg.flag then v else s.flag) (v == 0) := by
  rw [State.writeDest, State.setZ, flag_eq, reg_setReg_self, flag_setReg]

theorem writeDest_reg (s : State) (d q : RegNo) (v : Word) (hq : q ≠ Reg.flag) :
    (s.writeDest d v).reg q = if d = q then v else s.reg q := by
  rw [State.writeDest, State.setZ, reg_setReg_ne _ _ (Ne.symm hq), reg_setReg]

/-- Everything a destination write does. -/
theorem writeDest_spec (s : State) (d : RegNo) (v : Word) : DestWritten s (s.writeDest d v) d v where
  dest h := by rw [writeDest_reg _ _ _ _ h, if_pos rfl]
  flag i _ := by
    rw [writeDest_flag, getLsbD_setZero]
    split
    · rfl
    · split <;> rfl
  regs q hq := by
    simp only [List.mem_cons, List.not_mem_nil, or_false, not_or] at hq
    rw [writeDest_reg _ _ _ _ hq.2, if_neg (Ne.symm hq.1)]
  memory := SameMemory.of_eq rfl
  trace := rfl

/-! ### Errors -/

@[simp] theorem raise_mem (s : State) (e : Err) : (s.raise e).mem = s.mem := rfl

@[simp] theorem raise_trace (s : State) (e : Err) : (s.raise e).trace = s.trace := rfl

@[simp] theorem raise_draws (s : State) (e : Err) : (s.raise e).draws = s.draws := rfl

theorem raise_flag (s : State) (e : Err) : (s.raise e).flag = setExec (setErr s.flag e.code) false := by
  rw [State.raise, flag_setReg, if_neg (by decide), flag_eq, reg_setReg_self]

theorem raise_ret (s : State) (e : Err) : (s.raise e).reg Reg.ret = e.info := by
  rw [State.raise, reg_setReg_self]

theorem raise_reg (s : State) (e : Err) {q : RegNo} (h1 : q ≠ Reg.flag) (h2 : q ≠ Reg.ret) :
    (s.raise e).reg q = s.reg q := by
  rw [State.raise, reg_setReg_ne _ _ (Ne.symm h2), reg_setReg_ne _ _ (Ne.symm h1)]

/-- Everything the error response does. -/
theorem raise_spec (s : State) (e : Err) : Raised s (s.raise e) e where
  record := {
    flag := fun i _ => by rw [raise_flag, getLsbD_setExec, getLsbD_setErr]
    ret := raise_ret s e
    regs := fun q hq => by
      simp only [List.mem_cons, List.not_mem_nil, or_false, not_or] at hq
      exact raise_reg s e hq.1 hq.2
    trace := rfl }
  memory := SameMemory.of_eq rfl

@[simp] theorem settle_ok (s t : State) : settle s (.ok t) = t := rfl

@[simp] theorem settle_error (s : State) (e : Err) : settle s (.error e) = s.raise e := rfl

/-! ### The conditional test around an instruction -/

theorem conditional_passes {c : BitVec 4} {s : State} (h : Passes c s) (body : State → Except Err State) :
    conditional c s body = .next (settle s (body s)) := by
  unfold conditional
  rw [h]

theorem conditional_fails {c : BitVec 4} {s : State} (h : evalTest c s.flag = .fails)
    (body : State → Except Err State) : conditional c s body = .next s := by
  unfold conditional
  rw [h]

theorem conditional_reserved {c : BitVec 4} {s : State} (h : evalTest c s.flag = .reserved)
    (body : State → Except Err State) : conditional c s body = .fault (.reservedTest c) := by
  unfold conditional
  rw [h]

theorem conditional_unspecified {c : BitVec 4} {s : State} (h : evalTest c s.flag = .unspecified)
    (body : State → Except Err State) :
    conditional c s body =
      .next (if Config.freeBit s.draws then settle (s.drawn 1) (body (s.drawn 1)) else s.drawn 1) := by
  unfold conditional
  rw [h]

/-- Everything a conditional instruction can do when it answers a next state: skip, or end as its body settles, in each
case from the state itself or from it with one value drawn. -/
theorem conditional_inv {c : BitVec 4} {s t : State} {body : State → Except Err State}
    (h : conditional c s body = .next t) : ∃ u, (u = s ∨ u = s.drawn 1) ∧ (t = u ∨ t = settle u (body u)) := by
  cases hc : evalTest c s.flag with
  | holds =>
    rw [conditional_passes hc] at h
    cases h
    exact ⟨s, .inl rfl, .inr rfl⟩
  | fails =>
    rw [conditional_fails hc] at h
    cases h
    exact ⟨s, .inl rfl, .inl rfl⟩
  | reserved => rw [conditional_reserved hc] at h; cases h
  | unspecified =>
    rw [conditional_unspecified hc] at h
    cases h
    refine ⟨s.drawn 1, .inr rfl, ?_⟩
    split
    · exact .inr rfl
    · exact .inl rfl

/-! ### Memory accesses -/

theorem memRead_ok {s : State} {a : Word} {n : Nat} (h : s.mem.InBounds a n) :
    s.memRead a n = .ok (s.mem.loadLE a.toNat n) := by
  rw [State.memRead, if_pos h]

theorem memRead_error {s : State} {a : Word} {n : Nat} (h : ¬ s.mem.InBounds a n) :
    s.memRead a n = .error (.segfault a) := by
  rw [State.memRead, if_neg h]

theorem memRead_ok_iff {s : State} {a : Word} {n : Nat} {v : BitVec (8 * n)} :
    s.memRead a n = .ok v ↔ s.mem.InBounds a n ∧ s.mem.loadLE a.toNat n = v := by
  by_cases h : s.mem.InBounds a n
  · rw [memRead_ok h]; simp [h]
  · rw [memRead_error h]; simp [h]

theorem memWrite_ok {s : State} {a : Word} {n : Nat} (h : s.mem.InBounds a n) (v : BitVec (8 * n)) :
    s.memWrite a n v = .ok { s with mem := s.mem.storeLE a.toNat n v } := by
  rw [State.memWrite, if_pos h]

theorem memWrite_error {s : State} {a : Word} {n : Nat} (h : ¬ s.mem.InBounds a n) (v : BitVec (8 * n)) :
    s.memWrite a n v = .error (.segfault a) := by
  rw [State.memWrite, if_neg h]

/-! ### Operands -/

theorem checkReg_ok {r : BitVec 8} {d : RegNo} (h : r.toNat = d.val) : checkReg r = .ok d := by
  have h32 : r.toNat < 32 := by omega
  rw [checkReg, dif_pos h32]
  congr 1
  exact Fin.ext h

theorem checkReg_error {r : BitVec 8} (h : 32 ≤ r.toNat) : checkReg r = .error (.registerSegfault r) := by
  rw [checkReg, dif_neg (by omega)]

theorem checkReg_ok_iff {r : BitVec 8} {d : RegNo} : checkReg r = .ok d ↔ r.toNat = d.val := by
  constructor
  · intro h
    by_cases h32 : r.toNat < 32
    · rw [checkReg, dif_pos h32] at h
      cases h
      rfl
    · rw [checkReg_error (by omega)] at h
      cases h
  · exact checkReg_ok

theorem checkDatatype_ok {t : Datatype} (h : t.assigned = true) : checkDatatype t = .ok () := by
  rw [checkDatatype, if_pos h]

theorem checkDatatype_error {t : Datatype} (h : t.assigned = false) :
    checkDatatype t = .error (.invalidDatatype t.bits) := by
  rw [checkDatatype, h, if_neg (by decide)]

/-- A register, when its number is one. -/
theorem regNo_cases (r : BitVec 8) : 32 ≤ r.toNat ∨ ∃ d : RegNo, r.toNat = d.val := by
  by_cases h : r.toNat < 32
  · exact .inr ⟨⟨r.toNat, h⟩, rfl⟩
  · exact .inl (by omega)

/-- `resolveValue` looks at the registers and the memory alone. -/
@[simp] theorem resolveValue_drawn (s : State) (n : Nat) (v : Value) :
    resolveValue (s.drawn n) v = resolveValue s v := by
  cases v <;> rfl

/-! ### The shared bodies -/

theorem withRegValue_ok {s : State} {r : BitVec 8} {v : Value} {d : RegNo} {x : Word}
    (hr : r.toNat = d.val) (hv : resolveValue s v = .ok x) (k : RegNo → Word → Except Err State) :
    withRegValue s r v k = k d x := by
  simp only [withRegValue, checkReg_ok hr, hv, bind, Except.bind]

theorem withRegValue_badReg {s : State} {r : BitVec 8} {v : Value} (hr : 32 ≤ r.toNat)
    (k : RegNo → Word → Except Err State) : withRegValue s r v k = .error (.registerSegfault r) := by
  simp only [withRegValue, checkReg_error hr, bind, Except.bind]

theorem withRegValue_badValue {s : State} {r : BitVec 8} {v : Value} {d : RegNo} {e : Err}
    (hr : r.toNat = d.val) (hv : resolveValue s v = .error e) (k : RegNo → Word → Except Err State) :
    withRegValue s r v k = .error e := by
  simp only [withRegValue, checkReg_ok hr, hv, bind, Except.bind]

/-- Everything `withRegValue` can answer a state for. -/
theorem withRegValue_inv {s t : State} {r : BitVec 8} {v : Value} {k : RegNo → Word → Except Err State}
    (h : withRegValue s r v k = .ok t) : ∃ d x, r.toNat = d.val ∧ resolveValue s v = .ok x ∧ k d x = .ok t := by
  rcases regNo_cases r with hr | ⟨d, hr⟩
  · rw [withRegValue_badReg hr] at h; cases h
  · cases hv : resolveValue s v with
    | error e => rw [withRegValue_badValue hr hv] at h; cases h
    | ok x => rw [withRegValue_ok hr hv] at h; exact ⟨d, x, hr, rfl, h⟩

theorem withRegRegValue_ok {s : State} {r1 r2 : BitVec 8} {v : Value} {d a : RegNo} {x : Word}
    (h1 : r1.toNat = d.val) (h2 : r2.toNat = a.val) (hv : resolveValue s v = .ok x)
    (k : RegNo → Word → Word → Except Err State) : withRegRegValue s r1 r2 v k = k d (s.reg a) x := by
  simp only [withRegRegValue, checkReg_ok h1, checkReg_ok h2, hv, bind, Except.bind]

theorem withRegRegValue_badDest {s : State} {r1 r2 : BitVec 8} {v : Value} (h1 : 32 ≤ r1.toNat)
    (k : RegNo → Word → Word → Except Err State) :
    withRegRegValue s r1 r2 v k = .error (.registerSegfault r1) := by
  simp only [withRegRegValue, checkReg_error h1, bind, Except.bind]

theorem withRegRegValue_badSource {s : State} {r1 r2 : BitVec 8} {v : Value} {d : RegNo}
    (h1 : r1.toNat = d.val) (h2 : 32 ≤ r2.toNat) (k : RegNo → Word → Word → Except Err State) :
    withRegRegValue s r1 r2 v k = .error (.registerSegfault r2) := by
  simp only [withRegRegValue, checkReg_ok h1, checkReg_error h2, bind, Except.bind]

theorem withRegRegValue_badValue {s : State} {r1 r2 : BitVec 8} {v : Value} {d a : RegNo} {e : Err}
    (h1 : r1.toNat = d.val) (h2 : r2.toNat = a.val) (hv : resolveValue s v = .error e)
    (k : RegNo → Word → Word → Except Err State) : withRegRegValue s r1 r2 v k = .error e := by
  simp only [withRegRegValue, checkReg_ok h1, checkReg_ok h2, hv, bind, Except.bind]

/-- Everything `withRegRegValue` can answer a state for. -/
theorem withRegRegValue_inv {s t : State} {r1 r2 : BitVec 8} {v : Value}
    {k : RegNo → Word → Word → Except Err State} (h : withRegRegValue s r1 r2 v k = .ok t) :
    ∃ d a x, r1.toNat = d.val ∧ r2.toNat = a.val ∧ resolveValue s v = .ok x ∧ k d (s.reg a) x = .ok t := by
  rcases regNo_cases r1 with h1 | ⟨d, h1⟩
  · rw [withRegRegValue_badDest h1] at h; cases h
  · rcases regNo_cases r2 with h2 | ⟨a, h2⟩
    · rw [withRegRegValue_badSource h1 h2] at h; cases h
    · cases hv : resolveValue s v with
      | error e => rw [withRegRegValue_badValue h1 h2 hv] at h; cases h
      | ok x => rw [withRegRegValue_ok h1 h2 hv] at h; exact ⟨d, a, x, h1, h2, rfl, h⟩

/-! ### The cycle's parts -/

@[simp] theorem advance_mem (s : State) : s.advance.mem = s.mem := rfl

@[simp] theorem advance_trace (s : State) : s.advance.trace = s.trace := rfl

@[simp] theorem advance_draws (s : State) : s.advance.draws = s.draws := rfl

@[simp] theorem advance_ip (s : State) : s.advance.reg Reg.ip = s.reg Reg.ip + 8 := by
  rw [State.advance, reg_setReg_self]

theorem advance_reg (s : State) {q : RegNo} (h : q ≠ Reg.ip) : s.advance.reg q = s.reg q := by
  rw [State.advance, reg_setReg_ne _ _ (Ne.symm h)]

@[simp] theorem advance_flag (s : State) : s.advance.flag = s.flag := advance_reg s (by decide)

@[simp] theorem takeInterrupt_mem (s : State) : s.takeInterrupt.mem = s.mem := rfl

@[simp] theorem takeInterrupt_trace (s : State) : s.takeInterrupt.trace = s.trace := rfl

@[simp] theorem takeInterrupt_draws (s : State) : s.takeInterrupt.draws = s.draws := rfl

@[simp] theorem takeInterrupt_ip (s : State) : s.takeInterrupt.reg Reg.ip = handlerOffset := by
  rw [State.takeInterrupt, reg_setReg_self]

@[simp] theorem takeInterrupt_flag (s : State) : s.takeInterrupt.flag = setInInt s.flag true := by
  rw [State.takeInterrupt, flag_setReg, if_neg (by decide), flag_setReg, if_pos rfl]

@[simp] theorem takeInterrupt_iip (s : State) : s.takeInterrupt.reg Reg.iip = s.reg Reg.ip := by
  rw [State.takeInterrupt, reg_setReg_ne _ _ (by decide), reg_setReg_ne _ _ (by decide), reg_setReg_self]

theorem takeInterrupt_reg (s : State) {q : RegNo} (h1 : q ≠ Reg.ip) (h2 : q ≠ Reg.flag) (h3 : q ≠ Reg.iip) :
    s.takeInterrupt.reg q = s.reg q := by
  rw [State.takeInterrupt, reg_setReg_ne _ _ (Ne.symm h1), reg_setReg_ne _ _ (Ne.symm h2),
    reg_setReg_ne _ _ (Ne.symm h3)]

theorem interruptCheck_cases (s : State) :
    (s.interruptDue = false ∧ s.interruptCheck = s) ∨ (s.interruptDue = true ∧ s.interruptCheck = s.takeInterrupt) := by
  unfold State.interruptCheck
  cases s.interruptDue <;> simp

/-- Everything a step can do: none when halted; otherwise, after the interrupt check, the error of a fetch outside memory,
or the fetched word decoded and run. -/
theorem step_cases (s : State) :
    (s.running = false ∧ step s = .next s) ∨
    (s.running = true ∧ ∃ e, s.interruptCheck.fetch = .error e ∧ step s = .next (s.interruptCheck.raise e)) ∨
    (s.running = true ∧ ∃ w, s.interruptCheck.fetch = .ok w ∧ step s = runWord w s.interruptCheck.advance) := by
  unfold step cycle fetchAndRun
  cases hr : s.running with
  | false => simp
  | true =>
    cases hf : s.interruptCheck.fetch with
    | error e => simp
    | ok w => simp

end Sys2Proof.Machine
end

