-- ==== Sys2Proof/Laws/Instr.lean ====
section
/-! SUPPORT. Each instruction as a body under its conditional test, and how a statement about an instruction follows from one
about its body. -/

namespace Sys2Proof.Machine

/-! ### An instruction is a body under its test -/

/-- Every instruction with a test is one body run under whatever test it carries. -/
theorem exec_withTest {i : Instr} {c : BitVec 4} (h : i.test = some c) :
    ∃ body : State → Except Err State, ∀ c' s, exec (i.withTest c') s = conditional c' s body := by
  cases i <;> cases h
  exacts [⟨loadBody _ _, fun _ _ => rfl⟩, ⟨loaduBody _ _, fun _ _ => rfl⟩, ⟨storeBody _ _, fun _ _ => rfl⟩,
    ⟨arithBody addOp _ _ _ _, fun _ _ => rfl⟩, ⟨arithBody subOp _ _ _ _, fun _ _ => rfl⟩,
    ⟨arithBody mulOp _ _ _ _, fun _ _ => rfl⟩, ⟨arithBody divOp _ _ _ _, fun _ _ => rfl⟩,
    ⟨modBody _ _ _, fun _ _ => rfl⟩, ⟨cmpBody _ _ _, fun _ _ => rfl⟩, ⟨notBody _ _, fun _ _ => rfl⟩,
    ⟨logicBody (· &&& ·) _ _ _, fun _ _ => rfl⟩, ⟨logicBody (· ||| ·) _ _ _, fun _ _ => rfl⟩,
    ⟨logicBody (· ^^^ ·) _ _ _, fun _ _ => rfl⟩, ⟨shiftBody (fun a n => a >>> n) _ _ _, fun _ _ => rfl⟩,
    ⟨shiftBody (fun a n => a <<< n) _ _ _, fun _ _ => rfl⟩, ⟨pushBody _, fun _ _ => rfl⟩,
    ⟨callBody _, fun _ _ => rfl⟩, ⟨retBody, fun _ _ => rfl⟩, ⟨syscallBody _, fun _ _ => rfl⟩]

/-- An instruction under its own test is itself. -/
theorem withTest_self {i : Instr} {c : BitVec 4} (h : i.test = some c) : i.withTest c = i := by
  cases i <;> cases h <;> rfl

/-! ### From a body to its instruction -/

variable {i : Instr} {c : BitVec 4} {s t : State} {body : State → Except Err State}

/-- A body that ends in a state is an instruction that runs to it. -/
theorem runsTo_of_ok {P : State → Prop} (h : exec i s = conditional c s body) (hc : Passes c s) (hb : body s = .ok t)
    (hP : P t) : RunsTo i s P :=
  ⟨t, by rw [h, conditional_passes hc, hb, settle_ok], hP⟩

/-- A body that ends in an error is an instruction that raises it. -/
theorem runsTo_of_error {e : Err} (h : exec i s = conditional c s body) (hc : Passes c s) (hb : body s = .error e) :
    RunsTo i s fun t => Raised s t e :=
  ⟨s.raise e, by rw [h, conditional_passes hc, hb, settle_error], raise_spec s e⟩

/-- The checks of a `<reg> <value>` instruction, from its effect `k`. -/
theorem checksRegValue_of {r : BitVec 8} {v : Value} {P : RegNo → Word → State → Prop}
    (k : RegNo → Word → Except Err State) (h : exec i s = conditional c s body) (hc : Passes c s)
    (hb : body s = withRegValue s r v k) (hk : ∀ d x, ∃ t, k d x = .ok t ∧ P d x t) : ChecksRegValue i s r v P := by
  refine ⟨fun hr => runsTo_of_error h hc (hb.trans (withRegValue_badReg hr k)), fun d hd =>
    ⟨fun e he => runsTo_of_error h hc (hb.trans (withRegValue_badValue hd he k)), fun x hx => ?_⟩⟩
  obtain ⟨t, h1, h2⟩ := hk d x
  exact runsTo_of_ok h hc (hb.trans ((withRegValue_ok hd hx k).trans h1)) h2

/-- The checks of a `<reg> <reg> <value>` instruction, from its effect `k`. -/
theorem checksRegRegValue_of {r1 r2 : BitVec 8} {v : Value} {P : RegNo → Word → Word → State → Prop}
    (k : RegNo → Word → Word → Except Err State) (h : exec i s = conditional c s body) (hc : Passes c s)
    (hb : body s = withRegRegValue s r1 r2 v k) (hk : ∀ d a x, ∃ t, k d a x = .ok t ∧ P d a x t) :
    ChecksRegRegValue i s r1 r2 v P := by
  refine ⟨fun hr => runsTo_of_error h hc (hb.trans (withRegRegValue_badDest hr k)), fun h1 h2 => ?_, fun d a hd ha =>
    ⟨fun e he => runsTo_of_error h hc (hb.trans (withRegRegValue_badValue hd ha he k)), fun x hx => ?_⟩⟩
  · exact runsTo_of_error h hc (hb.trans (withRegRegValue_badSource (d := ⟨r1.toNat, h1⟩) rfl h2 k))
  · obtain ⟨t, h1, h2⟩ := hk d (s.reg a) x
    exact runsTo_of_ok h hc (hb.trans ((withRegRegValue_ok hd ha hx k).trans h1)) h2

/-- Writing a destination after drawing values is writing it from the state itself. -/
theorem writeDest_drawn_spec (s : State) (n : Nat) (d : RegNo) (v : Word) :
    DestWritten s ((s.drawn n).writeDest d v) d v := by
  obtain ⟨h1, h2, h3, h4, h5⟩ := writeDest_spec (s.drawn n) d v
  exact ⟨h1, h2, h3, ⟨h4.size, h4.bytes⟩, h5⟩

end Sys2Proof.Machine
end

