-- ==== Sys2Proof/Laws/Bodies.lean ====
section
/-! SUPPORT. What the operations behind `mod`, `push`, `call`, the services and the loader do, said once each. -/

namespace Sys2Proof.Machine

/-! ### Integers by datatype -/

theorem ofInt_toNat {n : Nat} (x : BitVec n) : BitVec.ofInt n (x.toNat : Int) = x := by
  apply BitVec.eq_of_toNat_eq
  simp

/-- R105: what the truncated remainder is. -/
theorem tmod_facts (a b : Int) (h : b ≠ 0) :
    (∃ q, a = q * b + a.tmod b) ∧ |a.tmod b| < |b| ∧ (0 ≤ a → 0 ≤ a.tmod b) ∧ (a ≤ 0 → a.tmod b ≤ 0) := by
  have hn := Int.natAbs_tmod a b
  refine ⟨⟨a.tdiv b, (Int.tdiv_mul_add_tmod a b).symm⟩, ?_, fun h => Int.tmod_nonneg _ h, fun h => ?_⟩
  · rw [Int.abs_eq_natAbs, Int.abs_eq_natAbs, hn]
    norm_cast
    exact Nat.mod_lt _ (by omega)
  · have := Int.tmod_nonneg (a := -a) b (by omega)
    rw [Int.neg_tmod] at this
    omega

/-- R105: the remainder fits a word, so it is written exactly. -/
theorem remainder_toInt (a : Word) (b : Half) (h : b.toInt ≠ 0) : (remainder a b).toInt = a.toInt.tmod b.toInt := by
  have hb1 : b.toInt < 2 ^ 31 := by simpa using BitVec.toInt_lt (x := b)
  have hb2 : -2 ^ 31 ≤ b.toInt := by simpa using BitVec.le_toInt (x := b)
  obtain ⟨-, hlt, -, -⟩ := tmod_facts a.toInt b.toInt h
  have hb : |b.toInt| ≤ 2 ^ 31 := by
    rw [abs_le]
    omega
  rw [abs_lt] at hlt
  rw [remainder]
  apply BitVec.toInt_ofInt_eq_self
  · decide
  · simp
    omega
  · simp
    omega

/-! ### Push -/

@[simp] theorem pushMemory_size (m : Memory) (slot : Nat) (v : Half) (k : Nat) :
    (pushMemory m slot v k).size = m.size := by
  simp only [pushMemory, setFree_size]
  exact storeLE_size 4 _ _ _

/-- R130: the value's four bytes. -/
theorem byte_pushMemory_value (m : Memory) (slot : Nat) (v : Half) (k j : Nat) (hj : j < 4) :
    (pushMemory m slot v k).byte (slot + 4 + j) = v.extractLsb' (8 * j) 8 := by
  simp only [pushMemory, byte_setFree]
  rw [if_neg (by omega), if_neg (by omega), if_neg (by omega), if_neg (by omega), byte_storeLE 4, if_pos (by omega)]
  congr 2
  omega

theorem byte_pushMemory_other (m : Memory) (slot : Nat) (v : Half) (k j : Nat) (hj : j < slot ∨ slot + 8 ≤ j) :
    (pushMemory m slot v k).byte j = m.byte j := by
  simp only [pushMemory, byte_setFree]
  rw [if_neg (by omega), if_neg (by omega), if_neg (by omega), if_neg (by omega), byte_storeLE 4, if_neg (by omega)]

theorem wf_pushMemory {m : Memory} {slot : Nat} (v : Half) (k : Nat) (hm : m.wf) (h : slot + 8 ≤ m.size) :
    (pushMemory m slot v k).wf := by
  have h0 := wf_storeLE 4 hm (a := slot + 4) v (by omega)
  have hs : (m.storeLE (slot + 4) 4 v).size = m.size := storeLE_size 4 _ _ _
  refine wf_setFree (wf_setFree (wf_setFree (wf_setFree h0 _ ?_) _ ?_) _ ?_) _ ?_ <;>
    simp only [setFree_size, hs] <;> omega

/-! ### The frame of a call -/

@[simp] theorem frameMemory_size (s : State) (low : Nat) : (frameMemory s low).size = s.mem.size := by
  simp only [frameMemory, storeLE_size]

theorem byte_frameMemory_other (s : State) (low j : Nat) (h : j < low ∨ low + 80 ≤ j) :
    (frameMemory s low).byte j = s.mem.byte j := by
  simp only [frameMemory, byte_storeLE]
  repeat rw [if_neg (by omega)]

/-- R137: the caller's `$fp` in the highest slot, the return address below it. -/
theorem loadLE_frameMemory_fp (s : State) (low : Nat) : (frameMemory s low).loadLE (low + 72) 8 = s.reg Reg.fp := by
  unfold frameMemory
  iterate 9 rw [loadLE_storeLE_disjoint 8 8 _ _ _ _ (by omega)]
  exact loadLE_storeLE_self 8 _ _ _

theorem loadLE_frameMemory_ip (s : State) (low : Nat) : (frameMemory s low).loadLE (low + 64) 8 = s.reg Reg.ip := by
  unfold frameMemory
  iterate 8 rw [loadLE_storeLE_disjoint 8 8 _ _ _ _ (by omega)]
  exact loadLE_storeLE_self 8 _ _ _

/-- R137: the preserved registers below, `$s1` highest. -/
theorem loadLE_frameMemory_saved (s : State) (low : Nat) :
    (frameMemory s low).loadLE (low + 56) 8 = s.reg Reg.s1 ∧ (frameMemory s low).loadLE (low + 48) 8 = s.reg Reg.s2 ∧
    (frameMemory s low).loadLE (low + 40) 8 = s.reg Reg.s3 ∧ (frameMemory s low).loadLE (low + 32) 8 = s.reg Reg.s4 ∧
    (frameMemory s low).loadLE (low + 24) 8 = s.reg Reg.s5 ∧ (frameMemory s low).loadLE (low + 16) 8 = s.reg Reg.s6 ∧
    (frameMemory s low).loadLE (low + 8) 8 = s.reg Reg.s7 ∧ (frameMemory s low).loadLE low 8 = s.reg Reg.s8 := by
  unfold frameMemory
  refine ⟨?_, ?_, ?_, ?_, ?_, ?_, ?_, loadLE_storeLE_self 8 _ _ _⟩
  · iterate 7 rw [loadLE_storeLE_disjoint 8 8 _ _ _ _ (by omega)]
    exact loadLE_storeLE_self 8 _ _ _
  · iterate 6 rw [loadLE_storeLE_disjoint 8 8 _ _ _ _ (by omega)]
    exact loadLE_storeLE_self 8 _ _ _
  · iterate 5 rw [loadLE_storeLE_disjoint 8 8 _ _ _ _ (by omega)]
    exact loadLE_storeLE_self 8 _ _ _
  · iterate 4 rw [loadLE_storeLE_disjoint 8 8 _ _ _ _ (by omega)]
    exact loadLE_storeLE_self 8 _ _ _
  · iterate 3 rw [loadLE_storeLE_disjoint 8 8 _ _ _ _ (by omega)]
    exact loadLE_storeLE_self 8 _ _ _
  · iterate 2 rw [loadLE_storeLE_disjoint 8 8 _ _ _ _ (by omega)]
    exact loadLE_storeLE_self 8 _ _ _
  · rw [loadLE_storeLE_disjoint 8 8 _ _ _ _ (by omega)]
    exact loadLE_storeLE_self 8 _ _ _

theorem wf_frameMemory {s : State} {low : Nat} (hm : s.mem.wf) (h : low + 80 ≤ s.mem.size) : (frameMemory s low).wf := by
  unfold frameMemory
  repeat' apply wf_storeLE 8
  all_goals first
    | exact hm
    | omega
    | simp only [storeLE_size]; omega

/-! ### Return -/

/-- R136: a return that completes changes the registers of the frame and `$sp`, and nothing else. -/
theorem retBody_inv {s t : State} (h : retBody s = .ok t) : OnlyRegs s t ([Reg.ip, Reg.sp, Reg.fp] ++ savedRegs) := by
  unfold retBody at h
  simp only [bind, Except.bind] at h
  repeat (split at h; · cases h)
  cases h
  refine ⟨?_, SameMemory.of_eq rfl, rfl⟩
  repeat (first | apply SameRegs.setReg | exact SameRegs.refl _ _)
  all_goals decide

/-- R136: a return completes only if all its reads do. -/
theorem retBody_reads {s t : State} (h : retBody s = .ok t) :
    ∀ p ∈ retReads (s.reg Reg.fp), p.1.toNat + p.2 ≤ s.mem.size := by
  have inBounds : ∀ {a : Word} {n : Nat} {v : BitVec (8 * n)}, s.memRead a n = .ok v → a.toNat + n ≤ s.mem.size :=
    fun hv => (memRead_ok_iff.mp hv).1
  unfold retBody at h
  simp only [bind, Except.bind] at h
  repeat (split at h; · cases h)
  simp only [retReads, List.forall_mem_cons, List.not_mem_nil, false_imp_iff, implies_true, and_true]
  and_intros <;> exact inBounds (by assumption)

/-! ### The services -/

/-- R145: a string up to its zero byte. -/
theorem stringFrom_ok (m : Memory) (bs : List Byte) (a left : Nat) (hl : bs.length < left)
    (hb : ∀ (j : Nat) (h : j < bs.length), bs[j] ≠ 0 ∧ m.byte (a + j) = bs[j]) (h0 : m.byte (a + bs.length) = 0) :
    stringFrom m a left = .ok bs := by
  induction bs generalizing a left with
  | nil =>
    cases left with
    | zero => simp at hl
    | succ n =>
      simp only [List.length_nil, Nat.add_zero] at h0
      simp [stringFrom, h0]
  | cons b bs ih =>
    cases left with
    | zero => simp at hl
    | succ n =>
      have hb0 := hb 0 (by simp)
      simp only [List.getElem_cons_zero, Nat.add_zero] at hb0
      have htail : stringFrom m (a + 1) n = .ok bs := by
        apply ih
        · simpa using hl
        · intro j h
          have hj := hb (j + 1) (by simpa using h)
          simp only [List.getElem_cons_succ] at hj
          rw [show a + 1 + j = a + (j + 1) by omega]
          exact hj
        · rw [← h0, List.length_cons]
          congr 1
          omega
      rw [stringFrom, hb0.2, if_neg hb0.1, htail]

/-- R145: no zero byte before the end. -/
theorem stringFrom_error (m : Memory) (left a : Nat) (h : ∀ j, a ≤ j → j < a + left → m.byte j ≠ 0) :
    stringFrom m a left = .error (.segfault (BitVec.ofNat 64 (a + left))) := by
  induction left generalizing a with
  | zero => rfl
  | succ n ih =>
    have h0 := h a (by omega) (by omega)
    have htail := ih (a + 1) fun j h1 h2 => h j (by omega) (by omega)
    simp only [stringFrom, h0, if_false, htail]
    congr 3
    omega

theorem add_one_toNat {a : Word} (h : a.toNat + 1 < 2 ^ 64) : (a + 1).toNat = a.toNat + 1 := by
  rw [BitVec.toNat_add, show BitVec.toNat (1 : Word) = 1 from rfl]
  omega

/-- The first byte outside memory, as the address of an access that starts outside. -/
theorem firstOutside_eq {a : Word} {size : Nat} (h : size ≤ a.toNat) : BitVec.ofNat 64 (max a.toNat size) = a := by
  rw [Nat.max_eq_left h, BitVec.ofNat_toNat, BitVec.setWidth_eq]

/-- R153: bytes that all lie in memory. -/
theorem readBytes_ok (s : State) (n : Nat) (a : Word) (hs : s.mem.size ≤ 2 ^ 32)
    (h : n = 0 ∨ a.toNat + n ≤ s.mem.size) :
    readBytes s a n = .ok ((List.range n).map fun j => s.mem.byte (a.toNat + j)) := by
  induction n generalizing a with
  | zero => rfl
  | succ n ih =>
    have hr : s.memRead a 1 = .ok (s.mem.byte a.toNat) := by
      rw [memRead_ok (by unfold Memory.InBounds; omega), loadLE_one]
    have ha : (a + 1).toNat = a.toNat + 1 := add_one_toNat (by omega)
    simp only [readBytes, hr, ih (a + 1) (by omega), List.range_succ_eq_map, List.map_cons, List.map_map]
    congr 2
    apply List.map_congr_left
    intro j _
    simp only [Function.comp, ha]
    congr 1
    omega

/-- R153: bytes that do not all lie in memory. -/
theorem readBytes_error (s : State) (n : Nat) (a : Word) (hs : s.mem.size ≤ 2 ^ 32) (h0 : n ≠ 0)
    (h : s.mem.size < a.toNat + n) :
    readBytes s a n = .error (.segfault (BitVec.ofNat 64 (max a.toNat s.mem.size))) := by
  induction n generalizing a with
  | zero => exact absurd rfl h0
  | succ n ih =>
    by_cases hb : s.mem.InBounds a 1
    · have hr : s.memRead a 1 = .ok (s.mem.byte a.toNat) := by rw [memRead_ok hb, loadLE_one]
      unfold Memory.InBounds at hb
      have ha : (a + 1).toNat = a.toNat + 1 := add_one_toNat (by omega)
      have htail := ih (a + 1) (by omega) (by omega)
      rw [ha, show max (a.toNat + 1) s.mem.size = max a.toNat s.mem.size by omega] at htail
      simp only [readBytes, hr, htail]
    · have hr := memRead_error hb
      unfold Memory.InBounds at hb
      rw [firstOutside_eq (by omega)]
      simp only [readBytes, hr]

theorem memWrite_one {s : State} {a : Word} (b : Byte) (h : s.mem.InBounds a 1) :
    s.memWrite a 1 b = .ok { s with mem := s.mem.setByte a.toNat b } := by
  have hb : BitVec.extractLsb' 0 8 b = b := by simp
  rw [State.memWrite, if_pos h]
  show Except.ok { s with mem := s.mem.setByte a.toNat (BitVec.extractLsb' 0 8 b) } = _
  rw [hb]

/-- R150: everything the writing of a string does to a memory of legal size. -/
theorem storeBytes_spec (bs : List Byte) (s : State) (a : Word) (hs : s.mem.size ≤ 2 ^ 32) :
    (∀ (j : Nat) (h : j < bs.length), a.toNat + j < s.mem.size →
      (storeBytes s a bs).mem.byte (a.toNat + j) = bs[j]) ∧
    SameMemoryOutside s (storeBytes s a bs) a.toNat bs.length ∧
    (a.toNat + bs.length ≤ s.mem.size → SameRegs s (storeBytes s a bs) [] ∧ (storeBytes s a bs).trace = s.trace) ∧
    (bs ≠ [] → s.mem.size < a.toNat + bs.length →
      ErrorRecorded s (storeBytes s a bs) (.segfault (BitVec.ofNat 64 (max a.toNat s.mem.size)))) := by
  induction bs generalizing s a with
  | nil =>
    exact ⟨fun j h => absurd h (Nat.not_lt_zero j), ⟨rfl, fun _ _ => rfl⟩, fun _ => ⟨SameRegs.refl _ _, rfl⟩,
      fun h => absurd rfl h⟩
  | cons b bs ih =>
    by_cases hb : s.mem.InBounds a 1
    · set s1 : State := { s with mem := s.mem.setByte a.toNat b } with hs1
      have e : storeBytes s a (b :: bs) = storeBytes s1 (a + 1) bs := by rw [storeBytes, memWrite_one b hb]
      have hm1 : s1.mem = s.mem.setByte a.toNat b := rfl
      have hsz1 : s1.mem.size = s.mem.size := by rw [hm1, setByte_size]
      unfold Memory.InBounds at hb
      have ha : (a + 1).toNat = a.toNat + 1 := add_one_toNat (by omega)
      obtain ⟨i1, i2, i3, i4⟩ := ih s1 (a + 1) (by omega)
      rw [ha] at i1 i2 i3 i4
      rw [hsz1] at i1 i3 i4
      rw [e]
      refine ⟨?_, ⟨by rw [i2.size, hsz1], ?_⟩, ?_, ?_⟩
      · intro j h hj
        cases j with
        | zero =>
          rw [i2.bytes _ (by omega), hm1, byte_setByte, if_pos (by omega)]
          rfl
        | succ j =>
          rw [show a.toNat + (j + 1) = a.toNat + 1 + j by omega, i1 j (by simpa using h) (by omega)]
          rfl
      · intro j hj
        simp only [List.length_cons] at hj
        rw [i2.bytes j (by omega), hm1, byte_setByte, if_neg (by omega)]
      · intro h
        simp only [List.length_cons] at h
        obtain ⟨k1, k2⟩ := i3 (by omega)
        exact ⟨fun r hr => k1 r hr, k2⟩
      · intro _ h
        simp only [List.length_cons] at h
        have hne : bs ≠ [] := by
          rintro rfl
          simp only [List.length_nil] at h
          omega
        have hrec := i4 hne (by omega)
        rw [show max (a.toNat + 1) s.mem.size = max a.toNat s.mem.size by omega] at hrec
        exact ⟨hrec.flag, hrec.ret, hrec.regs, hrec.trace⟩
    · have e : storeBytes s a (b :: bs) = s.raise (.segfault a) := by rw [storeBytes, memWrite_error hb]
      unfold Memory.InBounds at hb
      rw [e]
      refine ⟨fun j _ hj => by omega, ⟨rfl, fun _ _ => rfl⟩, fun h => ?_, fun _ _ => ?_⟩
      · simp only [List.length_cons] at h
        omega
      · rw [firstOutside_eq (by omega)]
        exact (raise_spec s _).record

/-- The writing of a string keeps the canonical form, in a memory of any size. -/
theorem wf_storeBytes (bs : List Byte) (s : State) (a : Word) (h : s.mem.wf) :
    (storeBytes s a bs).mem.wf ∧ (storeBytes s a bs).mem.size = s.mem.size := by
  induction bs generalizing s a with
  | nil => exact ⟨h, rfl⟩
  | cons b bs ih =>
    by_cases hb : s.mem.InBounds a 1
    · rw [storeBytes, memWrite_one b hb]
      have hw := wf_setByte h b (show a.toNat < s.mem.size from hb)
      exact ⟨(ih { s with mem := s.mem.setByte a.toNat b } (a + 1) hw).1, (ih _ (a + 1) hw).2.trans (setByte_size _ _ _)⟩
    · rw [storeBytes, memWrite_error hb]
      exact ⟨h, rfl⟩

/-- The writing of a string changes no register but those of an error, in a memory of any size. -/
theorem storeBytes_frame (bs : List Byte) (s : State) (a : Word) :
    SameRegs s (storeBytes s a bs) [Reg.flag, Reg.ret] ∧ (storeBytes s a bs).trace = s.trace := by
  induction bs generalizing s a with
  | nil => exact ⟨SameRegs.refl _ _, rfl⟩
  | cons b bs ih =>
    by_cases hb : s.mem.InBounds a 1
    · rw [storeBytes, memWrite_one b hb]
      have h := ih { s with mem := s.mem.setByte a.toNat b } (a + 1)
      exact ⟨fun r hr => h.1 r hr, h.2⟩
    · rw [storeBytes, memWrite_error hb]
      exact ⟨(raise_spec s _).record.regs, rfl⟩

/-! ### The loader -/

/-- Everything `readyToFetch` promises. -/
theorem readyToFetch_spec (s : State) (h : 0x18 ≤ s.mem.size) :
    s.readyToFetch.mem = s.mem ∧ s.readyToFetch.running = true ∧
    (s.readyToFetch.interruptDue = false → s.mem.InBounds (s.readyToFetch.reg Reg.ip) 8) := by
  unfold State.readyToFetch
  generalize hv : (if s.running then s else s.setReg Reg.flag (setExec s.flag true)) = v
  have hr : v.running = true := by
    rw [← hv]
    split
    · assumption
    · unfold State.running
      rw [flag_setReg, if_pos rfl, flagExec_setExec]
  have hm : v.mem = s.mem := by
    rw [← hv]
    split <;> rfl
  simp only
  by_cases hc : (v.interruptDue || decide (v.mem.InBounds (v.reg Reg.ip) 8)) = true
  · rw [if_pos hc]
    refine ⟨hm, hr, fun hn => ?_⟩
    simp only [hn, Bool.false_or, decide_eq_true_eq] at hc
    rw [← hm]
    exact hc
  · rw [if_neg hc]
    refine ⟨hm, ?_, fun hn => ?_⟩
    · unfold State.running
      rw [flag_setReg, if_neg (by decide)]
      exact hr
    · rw [reg_setReg_self, Memory.InBounds]
      exact h

end Sys2Proof.Machine
end

