-- ==== Sys2Proof/Laws/Encoding.lean ====
section
/-! SUPPORT. What each field of a word is after fields are placed in it, and the opcode map both ways. -/

namespace Sys2Proof

/-! ### The opcode map -/

theorem ofCode_code (o : Op) : Op.ofCode o.code = some o := by cases o <;> decide

/-- R73: the map is injective. -/
theorem code_injective {o o' : Op} (h : o.code = o'.code) : o = o' := by
  have h1 := ofCode_code o
  rw [h, ofCode_code] at h1
  exact (Option.some.inj h1).symm

theorem ofCode_eq_some {b : BitVec 6} {o : Op} (h : Op.ofCode b = some o) : o.code = b := by
  have h1 := List.find?_some h
  simpa using h1

/-- R75: the unassigned opcodes are 20 to 63. -/
theorem ofCode_eq_none_iff (b : BitVec 6) : Op.ofCode b = none ↔ 20 ≤ b.toNat := by
  revert b
  decide

/-! ### Fields of a word -/

theorem extract_or {n : Nat} (w v : Word) (lo : Nat) :
    (w ||| v).extractLsb' lo n = w.extractLsb' lo n ||| v.extractLsb' lo n := by
  apply BitVec.eq_of_getLsbD_eq
  intro i hi
  simp [hi]

/-- A field read where it was placed. -/
theorem extract_place_self (lo : Nat) {n : Nat} (b : BitVec n) (h : lo + n ≤ 64) :
    (place lo b).extractLsb' lo n = b := by
  apply BitVec.eq_of_getLsbD_eq
  intro i hi
  have h1 : lo + i < 64 := by omega
  simp [place, hi, h1]

/-- A field read where another was placed is zero. -/
theorem extract_place_other (lo lo' n' : Nat) {n : Nat} (b : BitVec n) (h : lo + n ≤ lo' ∨ lo' + n' ≤ lo) :
    (place lo b).extractLsb' lo' n' = 0#n' := by
  apply BitVec.eq_of_getLsbD_eq
  intro i hi
  rcases h with h | h
  · simp [place, hi, BitVec.getLsbD_of_ge b (lo' + i - lo) (by omega)]
  · have h1 : lo' + i < lo := by omega
    simp [place, hi, h1]

theorem extract_indData_reg (r : BitVec 8) (n : BitVec 24) : (indData r n).extractLsb' 0 8 = r := by
  apply BitVec.eq_of_getLsbD_eq
  intro i hi
  have h1 : i < 32 := by omega
  simp only [indData, BitVec.getLsbD_extractLsb', BitVec.getLsbD_or, BitVec.getLsbD_setWidth,
    BitVec.getLsbD_shiftLeft, Nat.zero_add, hi, h1, decide_true, Bool.true_and, Bool.not_true, Bool.false_and,
    Bool.or_false]

theorem extract_indData_offset (r : BitVec 8) (n : BitVec 24) : (indData r n).extractLsb' 8 24 = n := by
  apply BitVec.eq_of_getLsbD_eq
  intro i hi
  have h1 : 8 + i < 32 := by omega
  have h2 : ¬ (8 + i < 8) := by omega
  have h3 : i < 32 := by omega
  simp only [indData, BitVec.getLsbD_extractLsb', BitVec.getLsbD_or, BitVec.getLsbD_setWidth,
    BitVec.getLsbD_shiftLeft, hi, h1, h2, h3, decide_true, decide_false, Bool.true_and, Bool.not_false,
    BitVec.getLsbD_of_ge r (8 + i) (by omega), Bool.false_or, Nat.add_sub_cancel_left]

theorem ofBits_datatype (t : Datatype) : Datatype.ofBits t.bits = t := by cases t <;> rfl

theorem ofBits_value (v : Value) : Value.ofBits v.indicator v.data = v := by
  cases v <;>
    simp [Value.indicator, Value.data, Value.ofBits, extract_indData_reg, extract_indData_offset]

theorem ofBits_addr (a : Addr) : Addr.ofBits a.indicator a.data = a := by
  cases a <;>
    simp [Addr.indicator, Addr.data, Addr.ofBits, extract_indData_reg, extract_indData_offset]

/-- A `<value>` field that holds the indicator and the data of a value reads as that value. -/
theorem valueField_of {w : Word} {lo : Nat} {v : Value} (h1 : w.extractLsb' lo 2 = v.indicator)
    (h2 : w.extractLsb' (lo + 2) 32 = v.data) : valueField w lo = v := by
  rw [valueField, h1, h2, ofBits_value]

/-- An `<addr>` field that holds the indicator and the data of an address reads as that address. -/
theorem addrField_of {w : Word} {lo : Nat} {a : Addr} (h1 : w.extractLsb' lo 1 = a.indicator)
    (h2 : w.extractLsb' (lo + 1) 32 = a.data) : addrField w lo = a := by
  rw [addrField, h1, h2, ofBits_addr]

/-- Words that agree under a mask agree on every field inside the mask. -/
theorem field_eq_of_mask {w w' m : Word} (h : w &&& m = w' &&& m) {lo n : Nat}
    (hm : m.extractLsb' lo n = BitVec.allOnes n) : w.extractLsb' lo n = w'.extractLsb' lo n := by
  apply BitVec.eq_of_getLsbD_eq
  intro i hi
  have h1 := congrArg (fun x => x.getLsbD (lo + i)) h
  have h2 := congrArg (fun x => x.getLsbD i) hm
  simp only [BitVec.getLsbD_and] at h1
  simp only [BitVec.getLsbD_extractLsb', hi, decide_true, Bool.true_and, BitVec.getLsbD_allOnes] at h2 ⊢
  simpa only [h2, Bool.and_true] using h1

/-- A decoded word is an instruction of the opcode it holds. -/
theorem op_decodeAs (w : Word) (o : Op) : (decodeAs w o).op = o := by cases o <;> rfl

theorem decode_of_opField {w : Word} {o : Op} (h : opField w = o.code) : decode w = .ok (decodeAs w o) := by
  rw [decode, h, ofCode_code]

/-- R75, R80: what decoding answers, by the opcode field. -/
theorem decode_cases (w : Word) :
    (∃ o, opField w = o.code ∧ decode w = .ok (decodeAs w o)) ∨
    (20 ≤ (opField w).toNat ∧ decode w = .error ⟨opField w, testField w⟩) := by
  cases h : Op.ofCode (opField w) with
  | some o => exact .inl ⟨o, (ofCode_eq_some h).symm, by rw [decode, h]⟩
  | none => exact .inr ⟨(ofCode_eq_none_iff _).mp h, by rw [decode, h]⟩

end Sys2Proof
end

