-- ==== Sys2Proof/Laws/PerInstr.lean ====
section
/-! SUPPORT. Statements made of each instruction as syntax, one lemma per constructor: the header of its word (R61). -/

namespace Sys2Proof.Laws

/-- R61: W[5:0] of the encoded word is the opcode, and W[9:6] the conditional test of an instruction that has one. -/
def Header.Statement (i : Instr) : Prop :=
  opField (encode i) = i.op.code ∧ ∀ c, i.test = some c → testField (encode i) = c

/-- R61: the header of any word that holds one below its other fields. -/
theorem header_of_placed {o : Op} {c : BitVec 4} {rest : Word} (h0 : rest.extractLsb' 0 6 = 0)
    (h6 : rest.extractLsb' 6 4 = 0) : opField (placeHeader o c ||| rest) = o.code ∧
      ∀ c', some c = some c' → testField (placeHeader o c ||| rest) = c' := by
  constructor
  · simp (disch := omega) [opField, placeHeader, extract_or, extract_place_self, extract_place_other, h0]
  · rintro c' ⟨⟩
    simp (disch := omega) [testField, placeHeader, extract_or, extract_place_self, extract_place_other, h6]

theorem header_encodeRV (o : Op) (c : BitVec 4) (r : BitVec 8) (v : Value) :
    opField (encodeRV o c r v) = o.code ∧ ∀ c', some c = some c' → testField (encodeRV o c r v) = c' := by
  rw [encodeRV, BitVec.or_assoc]
  apply header_of_placed <;> simp (disch := omega) [placeValue, extract_or, extract_place_other]

theorem header_encodeTRRV (o : Op) (c : BitVec 4) (t : Datatype) (r1 r2 : BitVec 8) (v : Value) :
    opField (encodeTRRV o c t r1 r2 v) = o.code ∧
      ∀ c', some c = some c' → testField (encodeTRRV o c t r1 r2 v) = c' := by
  rw [encodeTRRV, BitVec.or_assoc, BitVec.or_assoc, BitVec.or_assoc]
  apply header_of_placed <;> simp (disch := omega) [placeValue, extract_or, extract_place_other]

theorem header_encodeRRV (o : Op) (c : BitVec 4) (r1 r2 : BitVec 8) (v : Value) :
    opField (encodeRRV o c r1 r2 v) = o.code ∧
      ∀ c', some c = some c' → testField (encodeRRV o c r1 r2 v) = c' := by
  rw [encodeRRV, BitVec.or_assoc, BitVec.or_assoc]
  apply header_of_placed <;> simp (disch := omega) [placeValue, extract_or, extract_place_other]

theorem header_encodeV (o : Op) (c : BitVec 4) (v : Value) :
    opField (encodeV o c v) = o.code ∧ ∀ c', some c = some c' → testField (encodeV o c v) = c' := by
  rw [encodeV]
  apply header_of_placed <;> simp (disch := omega) [placeValue, extract_or, extract_place_other]

theorem Header.nop : Header.Statement .nop := by
  constructor
  · decide
  · rintro c ⟨⟩

theorem Header.load (c : BitVec 4) (r : BitVec 8) (v : Value) : Header.Statement (.load c r v) :=
  header_encodeRV .load c r v

theorem Header.loadu (c : BitVec 4) (r : BitVec 8) (v : Value) : Header.Statement (.loadu c r v) :=
  header_encodeRV .loadu c r v

theorem Header.store (c : BitVec 4) (r : BitVec 8) (a : Addr) : Header.Statement (.store c r a) := by
  unfold Header.Statement
  rw [encode, encodeRA, BitVec.or_assoc]
  apply header_of_placed <;> simp (disch := omega) [placeAddr, extract_or, extract_place_other]

theorem Header.add (c : BitVec 4) (t : Datatype) (r1 r2 : BitVec 8) (v : Value) :
    Header.Statement (.add c t r1 r2 v) := header_encodeTRRV .add c t r1 r2 v

theorem Header.sub (c : BitVec 4) (t : Datatype) (r1 r2 : BitVec 8) (v : Value) :
    Header.Statement (.sub c t r1 r2 v) := header_encodeTRRV .sub c t r1 r2 v

theorem Header.mul (c : BitVec 4) (t : Datatype) (r1 r2 : BitVec 8) (v : Value) :
    Header.Statement (.mul c t r1 r2 v) := header_encodeTRRV .mul c t r1 r2 v

theorem Header.div (c : BitVec 4) (t : Datatype) (r1 r2 : BitVec 8) (v : Value) :
    Header.Statement (.div c t r1 r2 v) := header_encodeTRRV .div c t r1 r2 v

theorem Header.mod (c : BitVec 4) (r1 r2 : BitVec 8) (v : Value) : Header.Statement (.mod c r1 r2 v) :=
  header_encodeRRV .mod c r1 r2 v

theorem Header.cmp (c : BitVec 4) (t : Datatype) (r : BitVec 8) (v : Value) : Header.Statement (.cmp c t r v) := by
  unfold Header.Statement
  rw [encode, encodeTRV, BitVec.or_assoc, BitVec.or_assoc]
  apply header_of_placed <;> simp (disch := omega) [placeValue, extract_or, extract_place_other]

theorem Header.not (c : BitVec 4) (r1 r2 : BitVec 8) : Header.Statement (.not c r1 r2) := by
  unfold Header.Statement
  rw [encode, encodeRR, BitVec.or_assoc]
  apply header_of_placed <;> simp (disch := omega) [extract_or, extract_place_other]

theorem Header.and (c : BitVec 4) (r1 r2 : BitVec 8) (v : Value) : Header.Statement (.and c r1 r2 v) :=
  header_encodeRRV .and c r1 r2 v

theorem Header.or (c : BitVec 4) (r1 r2 : BitVec 8) (v : Value) : Header.Statement (.or c r1 r2 v) :=
  header_encodeRRV .or c r1 r2 v

theorem Header.xor (c : BitVec 4) (r1 r2 : BitVec 8) (v : Value) : Header.Statement (.xor c r1 r2 v) :=
  header_encodeRRV .xor c r1 r2 v

theorem Header.shr (c : BitVec 4) (r1 r2 : BitVec 8) (v : Value) : Header.Statement (.shr c r1 r2 v) :=
  header_encodeRRV .shr c r1 r2 v

theorem Header.shl (c : BitVec 4) (r1 r2 : BitVec 8) (v : Value) : Header.Statement (.shl c r1 r2 v) :=
  header_encodeRRV .shl c r1 r2 v

theorem Header.push (c : BitVec 4) (v : Value) : Header.Statement (.push c v) := header_encodeV .push c v

theorem Header.call (c : BitVec 4) (a : Addr) : Header.Statement (.call c a) := by
  unfold Header.Statement
  rw [encode, encodeA]
  apply header_of_placed <;> simp (disch := omega) [placeAddr, extract_or, extract_place_other]

theorem Header.ret (c : BitVec 4) : Header.Statement (.ret c) := by
  unfold Header.Statement
  rw [encode, ← BitVec.or_zero (x := placeHeader .ret c)]
  apply header_of_placed <;> simp

theorem Header.syscall (c : BitVec 4) (v : Value) : Header.Statement (.syscall c v) := header_encodeV .syscall c v

end Sys2Proof.Laws
end

