-- ==== Sys2Proof/Tests/Slice0.lean ====
section
/-! SUPPORT. Tests of the model, and for every obligation with hypotheses a witness that they can be met. The expected results
of the tests are the vectors of spec/95_test_vectors.md (sections in the comments) or are written out from the rule named. -/

namespace Sys2Proof.Tests

open Sys2Proof Sys2Proof.Machine

set_option maxRecDepth 4000

/-! ### Well-formedness: an ill-formed term for each check, refused -/

theorem test_wellFormed_accepts : (Instr.add 15 .u 31 0 (.ind 31 (-8))).wellFormed = true := by decide

/-- R62: 0100 is reserved. -/
theorem test_wellFormed_test : (Instr.ret 0b0100).wellFormed = false := by decide

/-- R62: 1010 has no suffix. -/
theorem test_wellFormed_testUnused : (Instr.push 0b1010 (.imm 0)).wellFormed = false := by decide

/-- R65. -/
theorem test_wellFormed_datatype6 : (Instr.cmp 15 .bad6 10 (.imm 0)).wellFormed = false := by decide

/-- R65. -/
theorem test_wellFormed_datatype7 : (Instr.mul 15 .bad7 10 10 (.imm 0)).wellFormed = false := by decide

/-- R11. -/
theorem test_wellFormed_destination : (Instr.load 15 32 (.imm 0)).wellFormed = false := by decide

theorem test_wellFormed_source : (Instr.not 15 10 32).wellFormed = false := by decide

theorem test_wellFormed_valueRegister : (Instr.syscall 15 (.reg 32)).wellFormed = false := by decide

theorem test_wellFormed_valueBase : (Instr.mod 15 10 10 (.ind 255 0)).wellFormed = false := by decide

theorem test_wellFormed_addressBase : (Instr.call 15 (.ind 32 0)).wellFormed = false := by decide

/-! ### Decoding: every constructor's word, from the vectors -/

theorem test_decode_nop : decode 0x0000000000000000 = .ok .nop := by decide

/-- 2.8: opcode 0 with other bits set. -/
theorem test_decode_nopUnusedBits : decode 0xFFFFFFFFFFFFFFC0 = .ok .nop := by decide

theorem test_decode_load : decode 0x000FFFFF802C2BC1 = .ok (.load 15 10 (.ind 2 (-8))) := by decide

theorem test_decode_loadMemory : decode 0x0000000800082BC1 = .ok (.load 15 10 (.mem 0x8000)) := by decide

theorem test_decode_loadConditional : decode 0x0000000000B42881 = .ok (.load 2 10 (.reg 11)) := by decide

theorem test_decode_loadu : decode 0x0000123456702BC2 = .ok (.loadu 15 10 (.imm 0x01234567)) := by decide

theorem test_decode_store : decode 0x0007FFFFC0142BC3 = .ok (.store 15 10 (.ind 2 (-8))) := by decide

theorem test_decode_storeMemory : decode 0x0000000010002BC3 = .ok (.store 15 10 (.mem 0x200)) := by decide

theorem test_decode_add : decode 0x00000006216147C4 = .ok (.add 15 .u 10 11 (.reg 12)) := by decide

theorem test_decode_sub : decode 0x0000000621614FC5 = .ok (.sub 15 .i 10 11 (.reg 12)) := by decide

theorem test_decode_mul : decode 0x0000800001614BC6 = .ok (.mul 15 .hi 10 11 (.imm 65536)) := by decide

theorem test_decode_div : decode 0x1FE00000014193C7 = .ok (.div 15 .f 12 10 (.imm 0x3FC00000)) := by decide

theorem test_decode_mod : decode 0x0FFFFFFFD02833C8 = .ok (.mod 15 12 10 (.imm (-3))) := by decide

theorem test_decode_cmp : decode 0x001FE000000157C9 = .ok (.cmp 15 .d 10 (.imm 0x3FC00000)) := by decide

theorem test_decode_not : decode 0x0000000000282FCA = .ok (.not 15 11 10) := by decide

/-- R68, R73: opcode 11, test 1111, `reg1` 10, `reg2` 11, mode 01, register 12. -/
theorem test_decode_and :
    decode (11 ||| (15 <<< 6) ||| (10 <<< 10) ||| (11 <<< 18) ||| (1 <<< 26) ||| (12 <<< 28)) =
      .ok (.and 15 10 11 (.reg 12)) := by decide

theorem test_decode_or : decode 0x00000000841013CC = .ok (.or 15 4 4 (.reg 8)) := by decide

theorem test_decode_xor : decode 0x00000010000C0FCD = .ok (.xor 15 3 3 (.imm 0x100)) := by decide

/-- R68, R73: opcode 14, test 1111, `reg1` 10, `reg2` 10, mode 00, immediate 63. -/
theorem test_decode_shr :
    decode (14 ||| (15 <<< 6) ||| (10 <<< 10) ||| (10 <<< 18) ||| (63 <<< 28)) = .ok (.shr 15 10 10 (.imm 63)) := by
  decide

theorem test_decode_shl : decode 0x00000000C42C2BCF = .ok (.shl 15 10 11 (.reg 12)) := by decide

theorem test_decode_push : decode 0x00000FFFFFFFF3D0 = .ok (.push 15 (.imm (-1))) := by decide

theorem test_decode_call : decode 0x0000000000800FD1 = .ok (.call 15 (.ind 1 16)) := by decide

theorem test_decode_ret : decode 0x0000000000000052 = .ok (.ret 1) := by decide

theorem test_decode_syscall : decode 0x000000000000B7D3 = .ok (.syscall 15 (.reg 11)) := by decide

/-- R75. -/
theorem test_decode_unassigned : decode 0x00000000000003D4 = .error ⟨20, 15⟩ := by decide

/-- R43: the bytes of a word, lowest first, and what follows them. -/
theorem test_decodeBytes : decodeBytes [0x52, 0, 0, 0, 0, 0, 0, 0, 0xAA] = .ok (.ret 1, [0xAA]) := by decide

theorem test_decodeBytes_truncated : decodeBytes [0x52, 0, 0] = .error .truncated := by decide

theorem test_encode : encode (.add 15 .u 10 10 (.imm (-75))) = 0x7FFFFFDA814147C4 := by decide

theorem test_decodeTableWord : decodeTableWord 64 0x400 = some .nop := by decide

/-! ### One step -/

/-- Section "Conventions" of the vectors: the reset state with some registers set, `$ip` at 0x100 and the word there. -/
def start (w : Nat) (regs : List (RegNo × Word)) : State :=
  (regs.foldl (fun s p => s.setReg p.1 p.2) (State.reset.setReg Reg.ip 0x100)).withFetchWord 64 w

/-- The same with 8 bytes of memory written. -/
def startMem (w : Nat) (regs : List (RegNo × Word)) (a : Nat) (v : Word) : State :=
  { start w regs with mem := (start w regs).mem.storeLE a 8 v }

/-- What is read from the state after one step. -/
def after {α : Type} (s : State) (read : State → α) : Option α :=
  match step s with
  | .next t => some (read t)
  | _ => none

/-- 2.8: only `$ip`. -/
theorem test_nop : after (start 0xFFFFFFFFFFFFFFC0 [(3, 0x12)]) (·.regs) =
    some ((start 0 [(3, 0x12)]).setReg 0 0x108).regs := by decide

/-- 2.1: zero-extended. -/
theorem test_load_immediate : after (start 0x000FFFFFFFF02BC1 []) (fun s => (s.reg 10, s.flag)) =
    some (0xFFFFFFFF, 0x10) := by decide

/-- 2.1: mode 11 with a negative offset. -/
theorem test_load_indirect : after (startMem 0x000FFFFF802C2BC1 [(2, 0x9000)] 0x8FF8 0xCAFE) (·.reg 10) =
    some 0xCAFE := by decide

/-- 2.1: `Z` from all 64 bits. -/
theorem test_loadu : after (start 0x0000000000002BC2 [(10, 0xFFFFFFFF00000005)]) (fun s => (s.reg 10, s.flag)) =
    some (5, 0x10) := by decide

/-- 2.1: little-endian. -/
theorem test_store : after (start 0x0000000010002BC3 [(10, 0x1122334455667788)])
    (fun s => (s.mem.byte 0x200, s.mem.byte 0x207, s.mem.byte 0x208)) = some (0x88, 0x11, 0) := by decide

/-- 2.1: out of bounds, memory as before. -/
theorem test_store_outside : after (start 0x00000000000C2BC3 [(1, 0xFFF9), (10, 0x55)])
    (fun s => (s.reg 7, s.flag, s.mem.byte 0xFFF9)) = some (0xFFF9, 0x40, 0) := by decide

/-- 2.2: wraps at 2^32, no sign. -/
theorem test_add_hu : after (start 0x00000000816143C4 [(11, 0xAAAAAAAAFFFFFFFF), (10, 9)])
    (fun s => (s.reg 10, s.flag)) = some (0, 0x18) := by decide

/-- 2.2: `$ip` read as the following instruction's address and written. -/
theorem test_add_ip : after (start 0x00000008000007C4 []) (·.reg 0) = some 0x118 := by decide

/-- 2.2. -/
theorem test_sub : after (start 0x0000000621614FC5 [(11, 5), (12, 7)]) (·.reg 10) = some 0xFFFFFFFFFFFFFFFE := by decide

/-- 2.2. -/
theorem test_mul : after (start 0x7FFFFFFE81614FC6 [(11, 7)]) (·.reg 10) = some 0xFFFFFFFFFFFFFFEB := by decide

/-- 2.2, R104: which conversions a `div.i` takes, whatever they give. -/
theorem test_div : after (start 0x0000000101418FC7 [(10, 7)]) (·.reg 12) =
    some (Config.floatOps.div64 (Config.floatOps.i64to64 7) (Config.floatOps.i32to64 2)) := by rfl

/-- 2.2: the sign of the dividend. -/
theorem test_mod : after (start 0x0FFFFFFFD02833C8 [(10, -7)]) (·.reg 12) = some (-1) := by decide

/-- 2.2, U4: a zero divisor goes on, with a value nothing is known of. -/
theorem test_mod_zero : after (start 0x00000000002833C8 [(10, 7)]) (fun s => (s.reg 12, s.reg 0)) =
    some (Config.freeWord 0, 0x108) := by rfl

/-- 2.3: only bits 3:0 are rewritten. -/
theorem test_cmp : after (start 0x0000000005A14FC9 [(10, 7), (11, 9), (3, 0x11F)]) (·.flag) = some 0x112 := by decide

/-- 2.3: an unsigned 64-bit operand against a negative value, no wrap-around. -/
theorem test_cmp_unsigned : after (start 0x007FFFFFFF8147C9 [(10, 0)]) (·.flag) = some 0x16 := by decide

/-- R120. -/
theorem test_not : after (start 0x0000000000282FCA [(10, 0xFFFFFFFFFFFFFFFF)]) (fun s => (s.reg 11, s.flag)) =
    some (0, 0x18) := by decide

/-- R121, R126: an immediate is zero-extended. -/
theorem test_and : after (start 0x0FFFFFFFF0282BCB [(10, 0xABCDEF0112345678)]) (·.reg 10) = some 0x12345678 := by decide

/-- 1, S13: the last instruction of `int 1`. -/
theorem test_or : after (start 0x00000000841013CC [(8, 1)]) (fun s => (s.reg 4, s.flag)) = some (1, 0x10) := by decide

/-- 1, S14: the first instruction of `rti`, with `$flag` as the destination. -/
theorem test_xor_flag : after (start 0x00000010000C0FCD [(3, 0x118)]) (·.flag) = some 0x10 := by decide

/-- 2.4: zeros enter at the top. -/
theorem test_shr : after (start 0x00000003F0282BCE [(10, 0x8000000000000000)]) (·.reg 10) = some 1 := by decide

/-- 2.4. -/
theorem test_shl : after (start 0x00000003F0282BCF [(10, 3)]) (·.reg 10) = some 0x8000000000000000 := by decide

/-- 2.4, U3: an amount of 64 goes on, with a value nothing is known of. -/
theorem test_shl_64 : after (start 0x0000000400282BCF [(10, 7)]) (fun s => (s.reg 10, s.reg 0)) =
    some (Config.freeWord 0, 0x108) := by rfl

/-- 2.5: `$sp` and the low half of a register. -/
theorem test_push : after (start 0x000000000000A7D0 [(10, 0x1122334455667788), (1, 0xFFF0)])
    (fun s => (s.reg 1, s.mem.loadLE 0xFFEC 4, s.mem.byte 0xFFF0)) = some (0xFFEC, 0x55667788, 0) := by decide

/-- 2.5: the 8-byte range is checked. -/
theorem test_push_outside : after (start 0x00000000000013D0 [(1, 0x10004)]) (fun s => (s.reg 7, s.flag, s.reg 1)) =
    some (0xFFFC, 0x40, 0x10004) := by decide

/-- 2.6: the frame exactly fits. -/
theorem test_call : after (start 0x00000000040003D1 [(1, 0x50), (24, 0x51), (31, 0x58)])
    (fun s => (s.reg 0, s.reg 1, s.reg 2, s.mem.loadLE 0x38 8, s.mem.loadLE 0 8)) =
    some (0x8000, 0, 0x48, 0x51, 0x58) := by decide

/-- 2.6: nothing written. -/
theorem test_call_outside : after (start 0x00000000040003D1 [(1, 0x48)]) (fun s => (s.reg 7, s.flag, s.reg 1, s.reg 2)) =
    some (0xFFFFFFFFFFFFFFF8, 0x40, 0x48, 0x10000) := by decide

/-- 2.6: all of memory 0, `$sp` above the count word. -/
theorem test_ret : after (start 0x00000000000003D2 [(2, 0xFFF4)]) (fun s => (s.reg 0, s.reg 1, s.reg 2)) =
    some (0, 0x10000, 0) := by decide

/-- 2.6: the count read is the last to fail. -/
theorem test_ret_outside : after (start 0x00000000000003D2 [(2, 0xFFF8)]) (fun s => (s.reg 7, s.flag)) =
    some (0x10000, 0x40) := by decide

/-- 2.7: up to the zero byte. -/
theorem test_syscall_printString : after (startMem 0x00000000000053D3 [(10, 0x200)] 0x200 0x6948) (·.trace) =
    some [.printString [0x48, 0x69]] := by decide

/-- 2.7: the number is 64-bit. -/
theorem test_syscall_unknown : after (start 0x000000000000B7D3 [(11, 0x10000000B)]) (fun s => (s.reg 7, s.flag)) =
    some (0x10000000B, 0x80) := by decide

/-! ### Errors, the conditional test, the cycle -/

/-- 2.8: the comparison bits are kept. -/
theorem test_invalidOpcode : after (start 0x000000000000007F [(3, 0x11)]) (fun s => (s.reg 7, s.flag, s.reg 0)) =
    some (0x3F, 0x21, 0x108) := by decide

/-- 2.8: the datatype is checked before the registers. -/
theorem test_invalidDatatype : after (start 0x0000000081791FC4 []) (fun s => (s.reg 7, s.flag)) =
    some (7, 0xA0) := by decide

/-- 2.8: the first register in syntax order. -/
theorem test_registerSegfault : after (start 0x00000000864507C4 []) (fun s => (s.reg 7, s.flag)) =
    some (0x28, 0x60) := by decide

/-- 2.3: skipped. -/
theorem test_skipped : after (start 0x0000000081614C44 [(3, 0x16), (11, 4)]) (fun s => (s.reg 10, s.flag, s.reg 0)) =
    some (0, 0x16, 0x108) := by decide

/-- R75, U1: a reserved test. -/
theorem test_reservedTest : step (start 0x0000000000502901 []) = .fault (.reservedTest 4) := by rfl

/-- 2.8: the fetch error does not advance `$ip`. -/
theorem test_fetch_outside : after (State.reset.setReg Reg.ip 0xFFFC) (fun s => (s.reg 7, s.flag, s.reg 0)) =
    some (0xFFFC, 0x40, 0xFFFC) := by decide

/-- 2.8: a halted processor. -/
theorem test_halted : step (State.reset.setReg Reg.flag 0) = .next (State.reset.setReg Reg.flag 0) := by rfl

/-- 2.9: entry and first handler instruction; the word at 0x400 is `load $r2, 9`. -/
theorem test_interrupt : after (startMem 0 [(4, 4)] 0x400 0x0000000000902FC1)
    (fun s => (s.reg 6, s.flag, s.reg 11, s.reg 0, s.reg 4)) = some (0x100, 0x110, 9, 0x408, 4) := by decide

/-- 2.9: masked. -/
theorem test_interrupt_masked : after (start 0x0000000000502BC1 [(4, 4), (5, 0xFFFFFFFFFFFFFFFB)])
    (fun s => (s.reg 10, s.reg 0)) = some (5, 0x108) := by decide

/-- R36 with the entry word of an image. -/
theorem test_reset : (State.resetWith ((Memory.blank 0x10000).storeLE 0 8 (0x10 : Word))).reg Reg.ip = 0x10 := by decide

/-! ### Witnesses: the hypotheses of each obligation met together, each clause at a boundary

`State.reset` has 0x10000 bytes of memory, all reading 0, so an 8-byte access fits at 0xFFF8 and not at 0xFFF9. -/

/-- What a `<reg> <value>` statement assumes, clause by clause: the test passes; register number 32 is in error and 31 is not;
a value in error; a value that resolves. -/
def RegValueCases : Prop :=
  Passes 15 State.reset ∧ 32 ≤ (32 : BitVec 8).toNat ∧ (31 : BitVec 8).toNat = (31 : RegNo).val ∧
  resolveValue State.reset (.mem 0xFFF9) = .error (.segfault 0xFFF9) ∧
  resolveValue State.reset (.mem 0xFFF8) = .ok 0

/-- The same for `<reg> <reg> <value>`, with a first register that is none, a second that is none, and two that are. -/
def RegRegValueCases : Prop :=
  RegValueCases ∧ (31 : BitVec 8).toNat < 32 ∧ (0 : BitVec 8).toNat = (0 : RegNo).val

/-- A datatype that is none and one that is. -/
def DatatypeCases : Prop :=
  (Datatype.bad6 = .bad6 ∨ Datatype.bad6 = .bad7) ∧ Datatype.d ≠ .bad6 ∧ Datatype.d ≠ .bad7

theorem regValueCases : RegValueCases := by
  refine ⟨?_, ?_, ?_, ?_, ?_⟩ <;> decide

theorem regRegValueCases : RegRegValueCases := ⟨regValueCases, by decide, by decide⟩

theorem datatypeCases : DatatypeCases := ⟨.inl rfl, by decide, by decide⟩

theorem witness_UnusedBitsDoNotChangeDecoding :
    opField 0x0000000000282FCA = Op.not.code ∧
    (0x0000000000282FCA &&& usedBits .not) = (0xFFFFFFFFFC282FCA &&& usedBits .not) := by decide

theorem witness_RegisterModeIgnoresUpperData :
    30 + 34 ≤ 64 ∧ (0x0000000140000000 : Word).extractLsb' 30 2 = 1 ∧
    (0xFFFFFF0140000000 : Word).extractLsb' 30 10 = (0x0000000140000000 : Word).extractLsb' 30 10 := by decide

theorem witness_DecodeIsTotalByOpcode :
    ((0xFFFFFFFFFFFFFFD3 : Word).extractLsb' 0 6).toNat < 20 ∧ 20 ≤ ((0x3D4 : Word).extractLsb' 0 6).toNat := by decide

theorem witness_StepRunsTheDecodedInstruction :
    flagExec State.reset.flag = true ∧ State.reset.interruptDue = false ∧
    State.reset.mem.InBounds (State.reset.reg Reg.ip) 8 ∧
    decode (State.reset.mem.loadLE (State.reset.reg Reg.ip).toNat 8) = .ok .nop := by decide

theorem witness_UnassignedOpcodeRaisesOrIsSkipped :
    ((start 0x3D4 []).running = true ∧ (start 0x3D4 []).interruptDue = false ∧ (start 0x3D4 []).fetch = .ok 0x3D4 ∧
      20 ≤ ((0x3D4 : Word).extractLsb' 0 6).toNat ∧ Passes ((0x3D4 : Word).extractLsb' 6 4) (start 0x3D4 [])) ∧
    ((start 0x7F [(3, 0x12)]).running = true ∧ (start 0x7F [(3, 0x12)]).interruptDue = false ∧
      (start 0x7F [(3, 0x12)]).fetch = .ok 0x7F ∧
      evalTest ((0x7F : Word).extractLsb' 6 4) (start 0x7F [(3, 0x12)]).flag = .fails) := by decide

theorem witness_FetchOutsideMemoryRaisesSegfault :
    (State.reset.setReg Reg.ip 0xFFF9).running = true ∧ (State.reset.setReg Reg.ip 0xFFF9).interruptDue = false ∧
    ¬ (State.reset.setReg Reg.ip 0xFFF9).mem.InBounds ((State.reset.setReg Reg.ip 0xFFF9).reg Reg.ip) 8 := by decide

theorem witness_InterruptEntrySavesAndRunsTheHandler :
    (State.reset.setReg Reg.isr 4).running = true ∧ (State.reset.setReg Reg.isr 4).interruptDue = true := by decide

theorem witness_HaltedProcessorStaysAsItIs :
    (State.reset.setReg Reg.flag 0).flag.getLsbD 4 = false ∧
    Reaches (State.reset.setReg Reg.flag 0) (State.reset.setReg Reg.flag 0) := ⟨by decide, .start⟩

theorem witness_PlacedWordIsTheNextToRun : Config.legalMemSize (State.reset.setReg Reg.flag 0).mem.size := by decide

theorem witness_ConditionalTestTable :
    (0x10 : Word).extractLsb' 0 3 = 0b000 ∧ (0x11 : Word).extractLsb' 0 3 = 0b001 ∧
    (0x12 : Word).extractLsb' 0 3 = 0b010 ∧ (0x13 : Word).extractLsb' 0 3 = 0b011 ∧
    (0x16 : Word).extractLsb' 0 3 = 0b110 ∧ (0x17 : Word).extractLsb' 0 3 = 0b111 := by decide

theorem witness_SkippedInstructionChangesNothing :
    (Instr.ret 1).test = some 1 ∧ evalTest 1 State.reset.flag = .fails := by decide

theorem witness_OnlyReservedTestsStop :
    ((Instr.ret 4).test = some 4 ∧ testReserved 4 = true) ∧
    (∀ c, (Instr.ret 3).test = some c → testReserved c = false) ∧
    (∀ c, Instr.nop.test = some c → testReserved c = false) := by
  refine ⟨by decide, ?_, ?_⟩
  · rintro c ⟨⟩
    decide
  · rintro c ⟨⟩

theorem witness_UnspecifiedTestSkipsOrRuns :
    (Instr.ret 14).test = some 14 ∧
    14#4 ∈ [0b0000#4, 0b0001#4, 0b0010#4, 0b0011#4, 0b0110#4, 0b0111#4, 0b1010#4, 0b1011#4, 0b1110#4] ∧
    flagCmp (State.reset.setReg Reg.flag 0x14).flag = 0b100 ∧
    flagCmp (State.reset.setReg Reg.flag 0x15).flag = 0b101 := by decide

theorem witness_MemoryWriteIsReadBack :
    (0xFFF8 : Word).toNat + 8 ≤ State.reset.mem.size ∧ State.reset.mem.size < (0xFFF9 : Word).toNat + 8 := by decide

theorem witness_ValueModesResolve :
    (31 : BitVec 8).toNat = (31 : RegNo).val ∧ 32 ≤ (32 : BitVec 8).toNat ∧
    ((∃ m : Half, Value.mem 0xFFF8 = .mem m ∧ (0xFFF8 : Word) = m.setWidth 64) ∧
      (0xFFF8 : Word).toNat + 8 ≤ State.reset.mem.size) ∧
    ((∃ (r : BitVec 8) (n : BitVec 24) (k : RegNo), Value.ind 2 (-7) = .ind r n ∧ r.toNat = k.val ∧
        (0xFFF9 : Word) = State.reset.reg k + n.signExtend 64) ∧
      State.reset.mem.size < (0xFFF9 : Word).toNat + 8) :=
  ⟨by decide, by decide, ⟨⟨0xFFF8, rfl, by decide⟩, by decide⟩, ⟨2, -7, 2, rfl, by decide, by decide⟩, by decide⟩

theorem witness_AddressModesResolve :
    (31 : BitVec 8).toNat = (31 : RegNo).val ∧ 32 ≤ (32 : BitVec 8).toNat := by decide

theorem witness_LoadWritesTheValue : RegValueCases := regValueCases

theorem witness_LoaduWritesTheUpperHalf : RegValueCases := regValueCases

theorem witness_LoadwLeavesTheImmediate :
    (10 : BitVec 8).toNat = Reg.r1.val ∧ Reg.r1 ≠ Reg.ip ∧ Reg.r1 ≠ Reg.flag := by decide

theorem witness_StoreWritesTheRegister :
    Passes 15 State.reset ∧ 32 ≤ (32 : BitVec 8).toNat ∧ (31 : BitVec 8).toNat = (31 : RegNo).val ∧
    effAddr State.reset (.ind 32 0) = .error (.registerSegfault 32) ∧
    (effAddr State.reset (.ind 2 (-7)) = .ok 0xFFF9 ∧ State.reset.mem.size < (0xFFF9 : Word).toNat + 8) ∧
    (effAddr State.reset (.ind 2 (-8)) = .ok 0xFFF8 ∧ (0xFFF8 : Word).toNat + 8 ≤ State.reset.mem.size) := by decide

theorem witness_FetchSeesTheStore :
    Passes 15 State.reset ∧ (31 : BitVec 8).toNat = (31 : RegNo).val ∧
    effAddr State.reset (.ind 2 (-8)) = .ok 0xFFF8 ∧ (0xFFF8 : Word).toNat + 8 ≤ State.reset.mem.size := by decide

theorem witness_AddSubMulByDatatype : RegRegValueCases ∧ DatatypeCases := ⟨regRegValueCases, datatypeCases⟩

theorem witness_DivWritesTheDoubleQuotient : RegRegValueCases ∧ DatatypeCases := ⟨regRegValueCases, datatypeCases⟩

theorem witness_ModWritesTheTruncatedRemainder :
    RegRegValueCases ∧ resolveValue State.reset (.imm 0x80000000) = .ok 0x80000000 ∧
    ((0x80000000 : Word).extractLsb' 0 32).toInt ≠ 0 := ⟨regRegValueCases, by decide, by decide⟩

theorem witness_CmpWritesTheComparisonBits : RegValueCases ∧ DatatypeCases := ⟨regValueCases, datatypeCases⟩

theorem witness_TestsAfterCmpAgreeWithTheOrder :
    (2 : BitVec 8).toNat = (2 : RegNo).val ∧ resolveValue State.reset (.imm 0xFFFFFFFF) = .ok 0xFFFFFFFF ∧
    (-1 : Int) = ((0xFFFFFFFF : Word).extractLsb' 0 32).toInt ∧
    (0x10000 : Int) = (State.reset.reg 2).toNat ∧ (0x10000 : Int) = (State.reset.reg 2).toInt := by decide

theorem witness_NotWritesTheInverse : RegRegValueCases := regRegValueCases

theorem witness_AndOrXorWriteTheBitwiseResult : RegRegValueCases := regRegValueCases

theorem witness_ShiftsWriteTheShiftedValue :
    RegRegValueCases ∧ resolveValue State.reset (.imm 63) = .ok 63 ∧ (63 : Word).toNat < 64 :=
  ⟨regRegValueCases, by decide, by decide⟩

theorem witness_PushWritesBelowTheStackPointer :
    Passes 15 State.reset ∧ State.reset.mem.size ≤ 2 ^ 32 ∧
    resolveValue State.reset (.reg 32) = .error (.registerSegfault 32) ∧
    resolveValue State.reset (.imm 21) = .ok 21 ∧
    (State.reset.reg Reg.sp - 8).toNat + 8 ≤ State.reset.mem.size ∧
    (State.reset.setReg Reg.sp 7).mem.size < ((State.reset.setReg Reg.sp 7).reg Reg.sp - 8).toNat + 8 := by decide

theorem witness_CallPushesTheFrameAndJumps :
    Passes 15 State.reset ∧ State.reset.mem.size ≤ 2 ^ 32 ∧
    effAddr State.reset (.ind 32 0) = .error (.registerSegfault 32) ∧ effAddr State.reset (.mem 0x50) = .ok 0x50 ∧
    (State.reset.reg Reg.sp - 80).toNat + 80 ≤ State.reset.mem.size ∧
    (State.reset.setReg Reg.sp 79).mem.size < ((State.reset.setReg Reg.sp 79).reg Reg.sp - 80).toNat + 80 := by decide

/-- The first read of the rule out of bounds, the last one, and none. -/
theorem witness_RetRestoresFromTheFrame :
    Passes 15 State.reset ∧
    (retReads (State.reset.reg Reg.fp) = [] ++ (0x10000, 8) :: (retReads 0x10000).tail ∧
      State.reset.mem.size < (0x10000 : Word).toNat + 8) ∧
    (retReads ((State.reset.setReg Reg.fp 0xFFF8).reg Reg.fp) = (retReads 0xFFF8).take 10 ++ (0x10000, 4) :: [] ∧
      (∀ p ∈ (retReads 0xFFF8).take 10, p.1.toNat + p.2 ≤ State.reset.mem.size) ∧
      State.reset.mem.size < (0x10000 : Word).toNat + 4) ∧
    (∀ p ∈ retReads ((State.reset.setReg Reg.fp 72).reg Reg.fp), p.1.toNat + p.2 ≤ State.reset.mem.size) := by decide

/-- A call from a stack with a count word above the frame, and the callee's state right after it. -/
theorem witness_RetUndoesCall :
    ∃ (s t : State), Passes 15 s ∧ s.mem.size ≤ 2 ^ 32 ∧ effAddr s (.mem 0x50) = .ok 0x50 ∧
      (s.reg Reg.sp - 80).toNat + 80 ≤ s.mem.size ∧ exec (.call 15 (.mem 0x50)) s = .next t ∧ Passes 15 t ∧
      t.memRead (s.reg Reg.sp) 4 = .ok 0 :=
  ⟨State.reset.setReg Reg.sp 80, _, by decide, by decide, by decide, by decide, rfl, by decide, by decide⟩

theorem witness_OutputServicesAppendOneEvent :
    Passes 15 State.reset ∧ resolveValue State.reset (.imm 1) = .ok 1 ∧ resolveValue State.reset (.imm 2) = .ok 2 ∧
    resolveValue State.reset (.imm 3) = .ok 3 ∧ resolveValue State.reset (.imm 4) = .ok 4 := by decide

theorem witness_PrintRegsShowsEveryRegister :
    let s := start 0x00000000000643D3 []
    s.running = true ∧ s.interruptDue = false ∧ s.mem.InBounds (s.reg Reg.ip) 8 ∧
    decode (s.mem.loadLE (s.reg Reg.ip).toNat 8) = .ok (.syscall 15 (.imm 100)) ∧ Passes 15 s ∧
    resolveValue (s.setReg Reg.ip (s.reg Reg.ip + 8)) (.imm 100) = .ok 100 := by decide

theorem witness_PrintStackEmitsTheStack :
    Passes 15 State.reset ∧ resolveValue State.reset (.imm 102) = .ok 102 := by decide

theorem witness_NopIsOpcodeZeroAndChangesNothing : (0xFFFFFFFFFFFFFFC0 : Word).extractLsb' 0 6 = 0 := by decide

/-- A string that ends with the last byte of memory; one whose last byte is the last of memory and not zero. -/
theorem witness_PrintStringStopsAtTheZeroByte :
    let s := startMem 0 [(10, 0xFFFE)] 0xFFF8 0x0041000000000000
    let t := startMem 0 [(10, 0xFFFF)] 0xFFF8 0x4100000000000000
    (Passes 15 s ∧ resolveValue s (.imm 5) = .ok 5 ∧ (s.reg Reg.r1).toNat + [(0x41 : Byte)].length < s.mem.size ∧
      (∀ (j : Nat) (h : j < [(0x41 : Byte)].length), [(0x41 : Byte)][j] ≠ 0 ∧
        s.mem.byte ((s.reg Reg.r1).toNat + j) = [(0x41 : Byte)][j]) ∧
      s.mem.byte ((s.reg Reg.r1).toNat + [(0x41 : Byte)].length) = 0) ∧
    (Passes 15 t ∧ resolveValue t (.imm 5) = .ok 5 ∧
      ∀ j, (t.reg Reg.r1).toNat ≤ j → j < t.mem.size → t.mem.byte j ≠ 0) := by
  refine ⟨by decide, by decide, by decide, fun j h1 h2 => ?_⟩
  have h3 : 0xFFFF ≤ j := h1
  have h4 : j < 0x10000 := h2
  obtain rfl : j = 0xFFFF := by omega
  decide

theorem witness_PrintMemEmitsTheSegment :
    let s := (State.reset.setReg Reg.r1 0xFFFE).setReg Reg.r2 2
    let t := (State.reset.setReg Reg.r1 0xFFFE).setReg Reg.r2 3
    (Passes 15 s ∧ resolveValue s (.imm 101) = .ok 101 ∧ s.mem.size ≤ 2 ^ 32 ∧
      (s.reg Reg.r1).toNat + (s.reg Reg.r2).toNat ≤ s.mem.size) ∧
    (Passes 15 t ∧ resolveValue t (.imm 101) = .ok 101 ∧ (t.reg Reg.r2).toNat ≠ 0 ∧
      t.mem.size < (t.reg Reg.r1).toNat + (t.reg Reg.r2).toNat) := by decide

theorem witness_InputServicesWriteRet :
    Passes 15 State.reset ∧ resolveValue State.reset (.imm 6) = .ok 6 ∧ resolveValue State.reset (.imm 7) = .ok 7 ∧
    resolveValue State.reset (.imm 8) = .ok 8 ∧ resolveValue State.reset (.imm 9) = .ok 9 := by decide

/-- A buffer at 0x300, and one that starts at the end of memory, where not even the zero byte fits. -/
theorem witness_ReadStringWritesATerminatedString :
    let s := (State.reset.setReg Reg.r1 0x300).setReg Reg.r2 0
    let t := (State.reset.setReg Reg.r1 0x10000).setReg Reg.r2 0
    (Passes 15 s ∧ resolveValue s (.imm 10) = .ok 10 ∧ s.mem.size ≤ 2 ^ 32 ∧ (s.reg Reg.r1).toNat + 0 < s.mem.size) ∧
    (Passes 15 t ∧ resolveValue t (.imm 10) = .ok 10 ∧ t.mem.size ≤ (t.reg Reg.r1).toNat + 0) := by decide

theorem witness_ExitHaltsTheProcessor :
    Passes 15 State.reset ∧ resolveValue State.reset (.imm 11) = .ok 11 := by decide

theorem witness_UnknownServiceRaisesInvalidSyscall :
    Passes 15 State.reset ∧ resolveValue State.reset (.reg 32) = .error (.registerSegfault 32) ∧
    (resolveValue State.reset (.imm 0) = .ok 0 ∧ (0 : Word).toNat = 0) ∧
    (resolveValue State.reset (.imm 12) = .ok 12 ∧ 11 < (12 : Word).toNat ∧ (12 : Word).toNat < 100) ∧
    (resolveValue State.reset (.imm 103) = .ok 103 ∧ 102 < (103 : Word).toNat) := by decide

theorem witness_AnErrorHaltsWithItsCode : Raised State.reset (State.reset.raise (.segfault 5)) (.segfault 5) :=
  raise_spec _ _

theorem witness_HeaderHoldsOpcodeAndTest :
    decode 0x52 = .ok (.ret 1) ∧ evalTest ((0x52 : Word).extractLsb' 6 4) State.reset.flag = .fails ∧
    evalTest ((0x52 : Word).extractLsb' 6 4) (State.reset.setReg Reg.flag 0x11).flag = .holds := by decide

theorem witness_InstructionsChangeOnlyTheirRegisters :
    ∃ t, exec (.load 15 31 (.imm 5)) State.reset = .next t ∧ t.reg 31 ≠ State.reset.reg 31 := ⟨_, rfl, by decide⟩

theorem witness_OnlyStoringInstructionsChangeMemory :
    (Instr.load 15 31 (.imm 5)).op ∉ [Op.store, .push, .call, .syscall] ∧
    ∃ t, exec (.load 15 31 (.imm 5)) State.reset = .next t := ⟨by decide, _, rfl⟩

theorem witness_TraceOnlyGrowsBySyscall :
    ((∃ t, exec (.push 15 (.imm 5)) State.reset = .next t) ∧ (Instr.push 15 (.imm 5)).op ≠ .syscall) ∧
    ∃ t, step State.reset = .next t := ⟨⟨⟨_, rfl⟩, by decide⟩, _, rfl⟩

/-- `or $isr, $isr, $k1` with a line in `$k1`. -/
theorem witness_OnlyInstructionsChangeIsr :
    ∃ t, step (start 0x00000000841013CC [(8, 1)]) = .next t ∧
      t.reg Reg.isr ≠ (start 0x00000000841013CC [(8, 1)]).reg Reg.isr := ⟨_, rfl, by decide⟩

theorem witness_IpMovesByEightUnlessWritten :
    State.reset.running = true ∧ State.reset.interruptDue = false ∧
    State.reset.mem.InBounds (State.reset.reg Reg.ip) 8 ∧
    decode (State.reset.mem.loadLE (State.reset.reg Reg.ip).toNat 8) = .ok .nop ∧
    Instr.nop.dest ≠ some 0 ∧ Instr.nop.op ≠ .call ∧ Instr.nop.op ≠ .ret ∧ ∃ t, step State.reset = .next t :=
  ⟨by decide, by decide, by decide, by decide, by decide, by decide, by decide, _, rfl⟩

theorem witness_StepKeepsTheStateLegal :
    ∃ t, (start 0x00000000000153D0 []).legal ∧ step (start 0x00000000000153D0 []) = .next t := ⟨_, by decide, rfl⟩

theorem witness_ResetIsLegal : (Memory.blank 0x410).wf ∧ (Memory.blank (2 ^ 32)).wf := by decide

end Sys2Proof.Tests
end

section
/-! PROOFS. The header of a decoded word (R61) and `nop` (R74). -/

namespace Sys2Proof.Machine

/-! ### What a decoded word says of its header -/

/-- R80: a word that decodes holds the opcode of a mnemonic, in whose format its fields are read. -/
theorem decode_eq_ok {w : Word} {i : Instr} (h : decode w = .ok i) :
    ∃ o, opField w = o.code ∧ i = decodeAs w o := by
  obtain ⟨o, ho, hd⟩ | ⟨-, hd⟩ := decode_cases w
  · exact ⟨o, ho, Except.ok.inj (h.symm.trans hd)⟩
  · exact nomatch h.symm.trans hd

/-- R61, R68: W[9:6] is the test in every format that has one. -/
theorem test_decodeAs (w : Word) {o : Op} (h : o ≠ .nop) : (decodeAs w o).test = some (testField w) := by
  cases o
  case nop => exact absurd rfl h
  all_goals rfl

/-! ### What the test of an instruction decides -/

/-- R162: `nop` leaves the state as it is. -/
@[simp] theorem exec_nop (s : State) : exec .nop s = .next s := rfl

/-- R64: an instruction whose test fails is skipped. -/
theorem exec_of_fails {i : Instr} {c : BitVec 4} {s : State} (hi : i.test = some c)
    (hc : evalTest c s.flag = .fails) : exec i s = .next s := by
  obtain ⟨body, hbody⟩ := exec_withTest hi
  calc exec i s = exec (i.withTest c) s := by rw [withTest_self hi]
    _ = .next s := by rw [hbody, conditional_fails hc]

/-- R63: an instruction whose test passes executes as under the test that always holds. -/
theorem exec_of_passes {i : Instr} {c : BitVec 4} {s : State} (hi : i.test = some c) (hc : Passes c s) :
    exec i s = exec (i.withTest 0b1111) s := by
  obtain ⟨body, hbody⟩ := exec_withTest hi
  calc exec i s = exec (i.withTest c) s := by rw [withTest_self hi]
    _ = .next (settle s (body s)) := by rw [hbody, conditional_passes hc]
    _ = exec (i.withTest 0b1111) s := by rw [hbody, conditional_passes (evalTest_always s.flag)]

/-! ### The obligations -/

/-- Settles O60: the opcode comes from how the word decodes. `nop` answers its own state, skipped or executed; every other
format reads its test from W[9:6]. -/
theorem headerHoldsOpcodeAndTest : Obligations.HeaderHoldsOpcodeAndTest := by
  intro w i s h
  obtain ⟨o, ho, rfl⟩ := decode_eq_ok h
  refine ⟨by rw [op_decodeAs, ← ho, opField], ?_⟩
  by_cases hnop : o = .nop
  · subst hnop
    exact ⟨fun _ => exec_nop s, fun _ => rfl⟩
  · have hi : (decodeAs w o).test = some (testField w) := test_decodeAs w hnop
    exact ⟨exec_of_fails hi, exec_of_passes hi⟩

/-- Settles O21: opcode 0 is the code of `nop`, whose format reads no other field. -/
theorem nopIsOpcodeZeroAndChangesNothing : Obligations.NopIsOpcodeZeroAndChangesNothing :=
  ⟨rfl, fun _ h => decode_of_opField (o := .nop) h, exec_nop⟩

end Sys2Proof.Machine
end

section
/-! PROOFS. The service `exit` (R151). -/

namespace Sys2Proof.Machine

/-! ### A register written, and nothing else -/

theorem onlyRegs_setReg (s : State) (r : RegNo) (v : Word) : OnlyRegs s (s.setReg r v) [r] where
  regs := SameRegs.setReg (SameRegs.refl s _) (List.mem_singleton_self r) v
  memory := SameMemory.of_eq (setReg_mem s r v)
  trace := setReg_trace s r v

/-! ### `syscall` and the service of its number -/

/-- R140: an operand that names a service performs it. -/
theorem syscallBody_of_service {s : State} {v : Value} {n : Word} {svc : Service} (hv : resolveValue s v = .ok n)
    (hn : serviceOf n = some svc) : syscallBody v s = serve s svc := by
  simp only [syscallBody, hv, hn, bind, Except.bind]

/-- R140: a `syscall` whose test passes and whose service completes runs to the state the service answers. -/
theorem runsTo_syscall {c : BitVec 4} {s t : State} {v : Value} {n : Word} {svc : Service} {P : State → Prop}
    (hc : Passes c s) (hv : resolveValue s v = .ok n) (hn : serviceOf n = some svc) (ht : serve s svc = .ok t)
    (hP : P t) : RunsTo (.syscall c v) s P :=
  runsTo_of_ok rfl hc ((syscallBody_of_service hv hn).trans ht) hP

/-! ### `exit` -/

/-- R151: the state after `exit`. -/
def State.exited (s : State) : State := s.setReg Reg.flag (setExec s.flag false)

theorem serve_exit (s : State) : serve s .exit = .ok s.exited := rfl

@[simp] theorem exited_flag (s : State) : s.exited.flag = setExec s.flag false := by
  rw [State.exited, flag_setReg, if_pos rfl]

@[simp] theorem exited_halted (s : State) : s.exited.halted = true := by
  rw [State.halted, State.running, exited_flag, flagExec_setExec, Bool.not_false]

theorem exited_onlyRegs (s : State) : OnlyRegs s s.exited [Reg.flag] := onlyRegs_setReg s _ _

@[simp] theorem exited_exitCode (s : State) : s.exited.exitCode = s.reg Reg.ret :=
  (exited_onlyRegs s).regs Reg.ret (by decide)

/-! ### The obligation -/

/-- Settles O46: service 11 is `exit`, which answers `s.exited`, where bit 4 of `$flag` alone differs from `s`. -/
theorem exitHaltsTheProcessor : Obligations.ExitHaltsTheProcessor := by
  intro c v s hc hv
  refine runsTo_syscall hc hv (n := 11) rfl (serve_exit s)
    ⟨exited_halted s, exited_exitCode s, exited_onlyRegs s, fun i _ => ?_⟩
  rw [exited_flag, getLsbD_setExec]

end Sys2Proof.Machine
end

section
/-! PROOFS. The decoder and the encoder (R61 to R80). -/

namespace Sys2Proof.Machine

open Sys2Proof.Laws

/-! ### The fields of an encoded word, format by format (R68) -/

theorem header_encode (i : Instr) : Header.Statement i := by
  cases i
  exacts [Header.nop, Header.load .., Header.loadu .., Header.store .., Header.add .., Header.sub .., Header.mul ..,
    Header.div .., Header.mod .., Header.cmp .., Header.not .., Header.and .., Header.or .., Header.xor ..,
    Header.shr .., Header.shl .., Header.push .., Header.call .., Header.ret .., Header.syscall ..]

theorem fields_encodeRV (o : Op) (c : BitVec 4) (r : BitVec 8) (v : Value) :
    regField (encodeRV o c r v) 10 = r ∧ valueField (encodeRV o c r v) 18 = v := by
  refine ⟨?_, valueField_of ?_ ?_⟩ <;>
    simp (disch := omega) [encodeRV, placeHeader, placeValue, regField, extract_or, extract_place_self,
      extract_place_other]

theorem fields_encodeRA (o : Op) (c : BitVec 4) (r : BitVec 8) (a : Addr) :
    regField (encodeRA o c r a) 10 = r ∧ addrField (encodeRA o c r a) 18 = a := by
  refine ⟨?_, addrField_of ?_ ?_⟩ <;>
    simp (disch := omega) [encodeRA, placeHeader, placeAddr, regField, extract_or, extract_place_self,
      extract_place_other]

theorem fields_encodeTRRV (o : Op) (c : BitVec 4) (t : Datatype) (r1 r2 : BitVec 8) (v : Value) :
    datatypeField (encodeTRRV o c t r1 r2 v) = t ∧ regField (encodeTRRV o c t r1 r2 v) 13 = r1 ∧
    regField (encodeTRRV o c t r1 r2 v) 21 = r2 ∧ valueField (encodeTRRV o c t r1 r2 v) 29 = v := by
  refine ⟨?_, ?_, ?_, valueField_of ?_ ?_⟩ <;>
    simp (disch := omega) [encodeTRRV, placeHeader, placeValue, datatypeField, ofBits_datatype, regField, extract_or,
      extract_place_self, extract_place_other]

theorem fields_encodeRRV (o : Op) (c : BitVec 4) (r1 r2 : BitVec 8) (v : Value) :
    regField (encodeRRV o c r1 r2 v) 10 = r1 ∧ regField (encodeRRV o c r1 r2 v) 18 = r2 ∧
    valueField (encodeRRV o c r1 r2 v) 26 = v := by
  refine ⟨?_, ?_, valueField_of ?_ ?_⟩ <;>
    simp (disch := omega) [encodeRRV, placeHeader, placeValue, regField, extract_or, extract_place_self,
      extract_place_other]

theorem fields_encodeTRV (o : Op) (c : BitVec 4) (t : Datatype) (r : BitVec 8) (v : Value) :
    datatypeField (encodeTRV o c t r v) = t ∧ regField (encodeTRV o c t r v) 13 = r ∧
    valueField (encodeTRV o c t r v) 21 = v := by
  refine ⟨?_, ?_, valueField_of ?_ ?_⟩ <;>
    simp (disch := omega) [encodeTRV, placeHeader, placeValue, datatypeField, ofBits_datatype, regField, extract_or,
      extract_place_self, extract_place_other]

theorem fields_encodeRR (o : Op) (c : BitVec 4) (r1 r2 : BitVec 8) :
    regField (encodeRR o c r1 r2) 10 = r1 ∧ regField (encodeRR o c r1 r2) 18 = r2 := by
  constructor <;>
    simp (disch := omega) [encodeRR, placeHeader, regField, extract_or, extract_place_self, extract_place_other]

theorem valueField_encodeV (o : Op) (c : BitVec 4) (v : Value) : valueField (encodeV o c v) 10 = v := by
  refine valueField_of ?_ ?_ <;>
    simp (disch := omega) [encodeV, placeHeader, placeValue, extract_or, extract_place_self, extract_place_other]

theorem addrField_encodeA (o : Op) (c : BitVec 4) (a : Addr) : addrField (encodeA o c a) 10 = a := by
  refine addrField_of ?_ ?_ <;>
    simp (disch := omega) [encodeA, placeHeader, placeAddr, extract_or, extract_place_self, extract_place_other]

/-- R68: reading an encoded word in the format of its own opcode gives the instruction back. -/
theorem decodeAs_encode (i : Instr) : decodeAs (encode i) i.op = i := by
  have htest : ∀ c, i.test = some c → testField (encode i) = c := (header_encode i).2
  cases i <;>
    simp only [encode, Instr.test, Option.some.injEq, forall_eq'] at htest <;>
    simp only [Instr.op, decodeAs, encode, htest, fields_encodeRV, fields_encodeRA, fields_encodeTRRV,
      fields_encodeRRV, fields_encodeTRV, fields_encodeRR, valueField_encodeV, addrField_encodeA]

/-! ### Words that agree on the used bits (R69) -/

section Mask

variable {w w' m : Word} (h : w &&& m = w' &&& m)
include h

theorem testField_congr (hm : m.extractLsb' 6 4 = BitVec.allOnes 4) : testField w = testField w' :=
  field_eq_of_mask h hm

theorem datatypeField_congr (hm : m.extractLsb' 10 3 = BitVec.allOnes 3) : datatypeField w = datatypeField w' :=
  congrArg Datatype.ofBits (field_eq_of_mask h hm)

theorem regField_congr {lo : Nat} (hm : m.extractLsb' lo 8 = BitVec.allOnes 8) : regField w lo = regField w' lo :=
  field_eq_of_mask h hm

theorem valueField_congr {lo : Nat}
    (hm : m.extractLsb' lo 2 = BitVec.allOnes 2 ∧ m.extractLsb' (lo + 2) 32 = BitVec.allOnes 32) :
    valueField w lo = valueField w' lo := by
  rw [valueField, field_eq_of_mask h hm.1, field_eq_of_mask h hm.2, valueField]

theorem addrField_congr {lo : Nat}
    (hm : m.extractLsb' lo 1 = BitVec.allOnes 1 ∧ m.extractLsb' (lo + 1) 32 = BitVec.allOnes 32) :
    addrField w lo = addrField w' lo := by
  rw [addrField, field_eq_of_mask h hm.1, field_eq_of_mask h hm.2, addrField]

end Mask

theorem decodeAs_congr {o : Op} {w w' : Word} (h : w &&& usedBits o = w' &&& usedBits o) :
    decodeAs w o = decodeAs w' o := by
  cases o <;>
    simp (disch := decide) only [decodeAs, testField_congr h, datatypeField_congr h, regField_congr h,
      valueField_congr h, addrField_congr h]

/-- R61: the opcode field is among the used bits of every format. -/
theorem opField_congr {o : Op} {w w' : Word} (h : w &&& usedBits o = w' &&& usedBits o) : opField w = opField w' :=
  field_eq_of_mask h (by cases o <;> decide)

/-! ### Register mode (R69) -/

/-- A field inside one on which two words agree is the same in both. -/
theorem extract_congr_sub {w w' : Word} {lo n lo' n' : Nat} (h : w'.extractLsb' lo n = w.extractLsb' lo n)
    (h1 : lo ≤ lo') (h2 : lo' + n' ≤ lo + n) : w'.extractLsb' lo' n' = w.extractLsb' lo' n' := by
  apply BitVec.eq_of_getLsbD_eq
  intro i hi
  have hbit := congrArg (fun x => x.getLsbD (lo' - lo + i)) h
  have hn : lo' - lo + i < n := by omega
  have hi' : lo + (lo' - lo + i) = lo' + i := by omega
  simpa [hn, hi', hi] using hbit

/-- R67: in Register mode a `<value>` is the register of the lowest data byte. -/
theorem valueField_of_registerMode {w : Word} {lo : Nat} (h : w.extractLsb' lo 2 = 1) :
    valueField w lo = .reg (w.extractLsb' (lo + 2) 8) := by
  have hdata : (w.extractLsb' (lo + 2) 32).extractLsb' 0 8 = w.extractLsb' (lo + 2) 8 := by
    apply BitVec.eq_of_getLsbD_eq
    intro i hi
    have hi' : i < 32 := by omega
    simp [hi, hi']
  rw [valueField, h, ← hdata]
  rfl

/-- R73: the opcodes of the mnemonics are those below 20. -/
theorem code_lt (o : Op) : o.code.toNat < 20 := by cases o <;> decide

/-! ### The obligations -/

/-- Settles O1: the opcode of the encoded word selects the format, whose fields are those placed. -/
theorem decodeOfEncodeIsTheInstruction : Obligations.DecodeOfEncodeIsTheInstruction := by
  intro i
  rw [decode_of_opField (header_encode i).1, decodeAs_encode]

/-- Settles O2: both words hold the opcode `o`, and every field of its format lies inside the mask. -/
theorem unusedBitsDoNotChangeDecoding : Obligations.UnusedBitsDoNotChangeDecoding := by
  intro o w w' ho h
  have ho' : opField w' = o.code := by rw [← opField_congr h, ho]
  rw [decode_of_opField ho, decode_of_opField ho', decodeAs_congr h]

/-- Settles O3: the indicator and the register lie in the 10 bits on which the words agree. -/
theorem registerModeIgnoresUpperData : Obligations.RegisterModeIgnoresUpperData := by
  intro w w' lo _ h1 h10
  have hind : w'.extractLsb' lo 2 = 1 := by rw [extract_congr_sub h10 le_rfl (by omega), h1]
  have hreg : w'.extractLsb' (lo + 2) 8 = w.extractLsb' (lo + 2) 8 :=
    extract_congr_sub h10 (by omega) (by omega)
  rw [valueField_of_registerMode hind, valueField_of_registerMode h1, hreg]

/-- Settles O4: an opcode field holds the code of a mnemonic, and then is below 20, or it does not. -/
theorem decodeIsTotalByOpcode : Obligations.DecodeIsTotalByOpcode := by
  intro w
  obtain ⟨o, ho, hd⟩ | ⟨h20, hd⟩ := decode_cases w
  · refine ⟨fun _ => ⟨decodeAs w o, hd, by rw [op_decodeAs, ← ho, opField]⟩, fun h => ?_⟩
    have hlt := code_lt o
    rw [← ho, opField] at hlt
    exact absurd h (Nat.not_le.mpr hlt)
  · exact ⟨fun h => absurd h (Nat.not_lt.mpr h20), fun _ => hd⟩

/-- Settles O5: each word evaluated. -/
theorem specWordsDecode : Obligations.SpecWordsDecode := by
  unfold Obligations.SpecWordsDecode
  decide

end Sys2Proof.Machine
end

section
/-! PROOFS. What an instruction, and a step, may change: the frame of every instruction, and the invariants from it. -/

namespace Sys2Proof.Machine

/-! ### Each instruction is its body under its test -/

/-- What each instruction does once its test has passed; `exec_eq_conditional` ties it to `exec`. -/
def bodyOf : Instr → State → Except Err State
  | .nop => .ok
  | .load _ r v => loadBody r v
  | .loadu _ r v => loaduBody r v
  | .store _ r a => storeBody r a
  | .add _ t r1 r2 v => arithBody addOp t r1 r2 v
  | .sub _ t r1 r2 v => arithBody subOp t r1 r2 v
  | .mul _ t r1 r2 v => arithBody mulOp t r1 r2 v
  | .div _ t r1 r2 v => arithBody divOp t r1 r2 v
  | .mod _ r1 r2 v => modBody r1 r2 v
  | .cmp _ t r v => cmpBody t r v
  | .not _ r1 r2 => notBody r1 r2
  | .and _ r1 r2 v => logicBody (· &&& ·) r1 r2 v
  | .or _ r1 r2 v => logicBody (· ||| ·) r1 r2 v
  | .xor _ r1 r2 v => logicBody (· ^^^ ·) r1 r2 v
  | .shr _ r1 r2 v => shiftBody (fun a n => a >>> n) r1 r2 v
  | .shl _ r1 r2 v => shiftBody (fun a n => a <<< n) r1 r2 v
  | .push _ v => pushBody v
  | .call _ a => callBody a
  | .ret _ => retBody
  | .syscall _ v => syscallBody v

theorem exec_eq_conditional {i : Instr} {c : BitVec 4} (h : i.test = some c) (s : State) :
    exec i s = conditional c s (bodyOf i) := by
  cases i <;> cases h <;> rfl

/-- The body does not depend on the test. -/
theorem bodyOf_withTest (c : BitVec 4) (i : Instr) : bodyOf (i.withTest c) = bodyOf i := by cases i <;> rfl

theorem eq_nop_of_test_none {i : Instr} (h : i.test = none) : i = .nop := by
  cases i
  case nop => rfl
  all_goals cases h

/-- Everything an instruction can do when it answers a next state: nothing, or what its body settles in, in each case
from the state itself or from it with one value drawn. -/
theorem exec_inv {i : Instr} {s t : State} (h : exec i s = .next t) :
    ∃ u, (u = s ∨ u = s.drawn 1) ∧ (t = u ∨ t = settle u (bodyOf i u)) := by
  cases hc : i.test with
  | none =>
    obtain rfl := eq_nop_of_test_none hc
    cases h
    exact ⟨s, .inl rfl, .inl rfl⟩
  | some c => exact conditional_inv ((exec_eq_conditional hc s).symm.trans h)

/-! ### What the bodies end in -/

theorem exists_of_bind_eq_ok {ε α β : Type} {x : Except ε α} {f : α → Except ε β} {b : β} (h : x >>= f = .ok b) :
    ∃ a, x = .ok a ∧ f a = .ok b := by
  cases x with
  | error e => cases h
  | ok a => exact ⟨a, rfl, h⟩

/-- R20: `t` is `s` after one destination write to register number `r`, values drawn or not. -/
def WritesDest (s t : State) (r : BitVec 8) : Prop :=
  ∃ (n : Nat) (d : RegNo) (v : Word), r.toNat = d.val ∧ t = (s.drawn n).writeDest d v

theorem withRegValue_writesDest {s t : State} {r : BitVec 8} {v : Value} {val : RegNo → Word → Word}
    (h : withRegValue s r v (fun d x => .ok (s.writeDest d (val d x))) = .ok t) : WritesDest s t r := by
  obtain ⟨d, x, hd, -, h⟩ := withRegValue_inv h
  cases h
  exact ⟨0, d, _, hd, rfl⟩

theorem withRegRegValue_writesDest {s t : State} {r1 r2 : BitVec 8} {v : Value} {val : Word → Word → Word}
    (h : withRegRegValue s r1 r2 v (fun d a x => .ok (s.writeDest d (val a x))) = .ok t) : WritesDest s t r1 := by
  obtain ⟨d, a, x, hd, -, -, h⟩ := withRegRegValue_inv h
  cases h
  exact ⟨0, d, _, hd, rfl⟩

theorem arithBody_writesDest {op : Datatype → Word → Half → Word} {dt : Datatype} {r1 r2 : BitVec 8} {v : Value}
    {s t : State} (h : arithBody op dt r1 r2 v s = .ok t) : WritesDest s t r1 := by
  obtain ⟨_, -, h⟩ := exists_of_bind_eq_ok h
  exact withRegRegValue_writesDest h

theorem shiftBody_writesDest {op : Word → Nat → Word} {r1 r2 : BitVec 8} {v : Value} {s t : State}
    (h : shiftBody op r1 r2 v s = .ok t) : WritesDest s t r1 := by
  obtain ⟨d, a, x, hd, -, -, h⟩ := withRegRegValue_inv h
  split at h <;> cases h
  · exact ⟨0, d, _, hd, rfl⟩
  · exact ⟨1, d, _, hd, rfl⟩

theorem modBody_writesDest {r1 r2 : BitVec 8} {v : Value} {s t : State} (h : modBody r1 r2 v s = .ok t) :
    WritesDest s t r1 := by
  obtain ⟨d, a, x, hd, -, -, h⟩ := withRegRegValue_inv h
  split at h <;> cases h
  · exact ⟨1, d, _, hd, rfl⟩
  · exact ⟨0, d, _, hd, rfl⟩

theorem notBody_writesDest {r1 r2 : BitVec 8} {s t : State} (h : notBody r1 r2 s = .ok t) : WritesDest s t r1 := by
  obtain ⟨d, hd, h⟩ := exists_of_bind_eq_ok h
  obtain ⟨a, -, h⟩ := exists_of_bind_eq_ok h
  cases h
  exact ⟨0, d, _, checkReg_ok_iff.mp hd, rfl⟩

/-- R20: the thirteen instructions with a destination end in one destination write. -/
theorem bodyOf_writesDest {i : Instr} {r : BitVec 8} {s t : State} (hi : i.dest = some r) (h : bodyOf i s = .ok t) :
    WritesDest s t r := by
  cases i <;> cases hi
  case load | loadu => exact withRegValue_writesDest h
  case add | sub | mul | div => exact arithBody_writesDest h
  case mod => exact modBody_writesDest h
  case not => exact notBody_writesDest h
  case and | or | xor => exact withRegRegValue_writesDest h
  case shr | shl => exact shiftBody_writesDest h

/-- R113. -/
theorem cmpBody_inv {dt : Datatype} {r : BitVec 8} {v : Value} {s t : State} (h : cmpBody dt r v s = .ok t) :
    ∃ f : Word, t = s.setReg Reg.flag f := by
  obtain ⟨_, _, h⟩ := exists_of_bind_eq_ok h
  obtain ⟨d, x, -, -, h⟩ := withRegValue_inv h
  cases h
  exact ⟨_, rfl⟩

/-- R94. -/
theorem storeBody_inv {r : BitVec 8} {a : Addr} {s t : State} (h : storeBody r a s = .ok t) :
    ∃ (p : Word) (v : Word), s.mem.InBounds p 8 ∧ t = { s with mem := s.mem.storeLE p.toNat 8 v } := by
  obtain ⟨k, -, h⟩ := exists_of_bind_eq_ok h
  obtain ⟨p, -, h⟩ := exists_of_bind_eq_ok h
  by_cases hp : s.mem.InBounds p 8
  · rw [memWrite_ok hp] at h
    cases h
    exact ⟨p, _, hp, rfl⟩
  · rw [memWrite_error hp] at h
    cases h

/-- R130: the state after a push of the low half of `x`. -/
def State.pushed (s : State) (x : Word) : State :=
  ({ s with mem := pushMemory s.mem (s.reg Reg.sp - 8).toNat (lowHalf x) s.draws }.drawn 4).setReg Reg.sp
    (s.reg Reg.sp - 4)

theorem pushed_sameRegs (s : State) (x : Word) : SameRegs s (s.pushed x) [Reg.sp] :=
  SameRegs.setReg (s := s) (t := State.drawn { s with mem := _ } 4) (fun _ _ => rfl) (by simp) _

theorem pushBody_of_value {v : Value} {s : State} {x : Word} (hv : resolveValue s v = .ok x) :
    pushBody v s =
      if s.mem.InBounds (s.reg Reg.sp - 8) 8 then .ok (s.pushed x) else .error (.segfault (s.reg Reg.sp - 8)) := by
  simp only [pushBody, hv, bind, Except.bind, State.pushed]

theorem pushBody_inv {v : Value} {s t : State} (h : pushBody v s = .ok t) :
    ∃ x, s.mem.InBounds (s.reg Reg.sp - 8) 8 ∧ t = s.pushed x := by
  obtain ⟨x, hv, -⟩ := exists_of_bind_eq_ok h
  rw [pushBody_of_value hv] at h
  split at h <;> cases h
  next hb => exact ⟨x, hb, rfl⟩

/-- R135: the state after a call of `p`. -/
def State.called (s : State) (p : Word) : State :=
  (({ s with mem := frameMemory s (s.reg Reg.sp - 80).toNat }.setReg Reg.fp (s.reg Reg.sp - 8)).setReg Reg.sp
    (s.reg Reg.sp - 80)).setReg Reg.ip p

theorem called_sameRegs (s : State) (p : Word) : SameRegs s (s.called p) [Reg.ip, Reg.fp, Reg.sp] := by
  unfold State.called
  iterate 3 apply SameRegs.setReg
  · exact fun _ _ => withMem_reg s _ _
  all_goals simp

theorem callBody_of_addr {a : Addr} {s : State} {p : Word} (ha : effAddr s a = .ok p) :
    callBody a s =
      if s.mem.InBounds (s.reg Reg.sp - 80) 80 then .ok (s.called p)
      else .error (.segfault (s.reg Reg.sp - 80)) := by
  simp only [callBody, ha, bind, Except.bind, State.called]

theorem callBody_inv {a : Addr} {s t : State} (h : callBody a s = .ok t) :
    ∃ p, s.mem.InBounds (s.reg Reg.sp - 80) 80 ∧ t = s.called p := by
  obtain ⟨p, ha, -⟩ := exists_of_bind_eq_ok h
  rw [callBody_of_addr ha] at h
  split at h <;> cases h
  next hb => exact ⟨p, hb, rfl⟩

/-- R136: a return writes no memory. -/
theorem retBody_mem {s t : State} (h : retBody s = .ok t) : t.mem = s.mem := by
  unfold retBody at h
  iterate 11 obtain ⟨_, -, h⟩ := exists_of_bind_eq_ok h
  cases h
  rfl

/-- R141 to R154: what a service that completes ends in. -/
theorem serve_inv {s t : State} {svc : Service} (h : serve s svc = .ok t) :
    (∃ e, t = s.emit e) ∨ (∃ v, t = (s.drawn 1).setReg Reg.ret v) ∨ t = s.exited ∨
    ∃ a bs, t = storeBytes (s.drawn 1) a bs := by
  cases svc
  case printInt | printFloat | printDouble | printChar | printRegs | printStack =>
    cases h
    exact .inl ⟨_, rfl⟩
  case printString | printMem =>
    obtain ⟨bs, -, h⟩ := exists_of_bind_eq_ok h
    cases h
    exact .inl ⟨_, rfl⟩
  case readInt | readFloat | readDouble | readChar =>
    cases h
    exact .inr (.inl ⟨_, rfl⟩)
  case exit =>
    cases h
    exact .inr (.inr (.inl rfl))
  case readString =>
    cases h
    exact .inr (.inr (.inr ⟨_, _, rfl⟩))

theorem syscallBody_inv {v : Value} {s t : State} (h : syscallBody v s = .ok t) : ∃ svc, serve s svc = .ok t := by
  obtain ⟨n, -, h⟩ := exists_of_bind_eq_ok h
  split at h
  · next svc _ => exact ⟨svc, h⟩
  · cases h

/-! ### The frame of an instruction -/

/-- The registers an instruction may change: its destination, `$flag`, `$ret`, those `push`, `call` and `ret` move. -/
def MayWrite (i : Instr) (r : RegNo) : Prop :=
  r = Reg.flag ∨ r = Reg.ret ∨ (∃ d, i.dest = some d ∧ d.toNat = r.val) ∨
  (i.op = .push ∧ r = Reg.sp) ∨ (i.op = .call ∧ r ∈ [Reg.ip, Reg.sp, Reg.fp]) ∨
  (i.op = .ret ∧ r ∈ [Reg.ip, Reg.sp, Reg.fp] ++ savedRegs)

/-- What `i` leaves unchanged from `s` to `t`, and what it keeps. -/
structure InstrFrame (i : Instr) (s t : State) : Prop where
  regs : ∀ r, ¬ MayWrite i r → t.reg r = s.reg r
  memory : i.op ∉ [Op.store, .push, .call, .syscall] → t.mem = s.mem
  legal : s.legal → t.legal ∧ t.mem.size = s.mem.size
  trace : ∃ es, t.trace = s.trace ++ es ∧ es.length ≤ 1 ∧ (i.op ≠ .syscall → es = [])

/-- The registers listed are among those the instruction may change, and nothing else but them changes. -/
theorem InstrFrame.of_regs {i : Instr} {s t : State} {l : List RegNo} (hl : ∀ r ∈ l, MayWrite i r)
    (hr : SameRegs s t l) (hm : t.mem = s.mem) (ht : t.trace = s.trace) : InstrFrame i s t where
  regs r h := hr r fun hmem => h (hl r hmem)
  memory _ := hm
  legal h := by rw [State.legal, hm]; exact ⟨h, rfl⟩
  trace := ⟨[], by simpa using ht, by simp, fun _ => rfl⟩

theorem InstrFrame.refl (i : Instr) (s : State) : InstrFrame i s s :=
  .of_regs (l := []) (by simp) (SameRegs.refl s []) rfl rfl

/-- The registers listed change, and memory becomes what the storing instruction wrote. -/
theorem InstrFrame.of_stored {i : Instr} {s t : State} {l : List RegNo} (hl : ∀ r ∈ l, MayWrite i r)
    (hi : i.op ∈ [Op.store, .push, .call, .syscall]) (hr : SameRegs s t l)
    (hm : s.mem.wf → t.mem.wf ∧ t.mem.size = s.mem.size) (ht : t.trace = s.trace) : InstrFrame i s t where
  regs r h := hr r fun hmem => h (hl r hmem)
  memory h := absurd hi h
  legal := hm
  trace := ⟨[], by simpa using ht, by simp, fun _ => rfl⟩

theorem mayWrite_error (i : Instr) : ∀ r ∈ [Reg.flag, Reg.ret], MayWrite i r := by
  simp [MayWrite]

theorem InstrFrame.raise (i : Instr) (s : State) (e : Err) : InstrFrame i s (s.raise e) :=
  .of_regs (mayWrite_error i) (raise_spec s e).record.regs rfl rfl

/-- A value drawn first is nothing that the frame speaks of. -/
theorem InstrFrame.of_drawn {i : Instr} {s t : State} {n : Nat} (h : InstrFrame i (s.drawn n) t) :
    InstrFrame i s t := ⟨h.regs, h.memory, h.legal, h.trace⟩

theorem InstrFrame.writeDest {i : Instr} {s : State} {r : BitVec 8} {d : RegNo} (hi : i.dest = some r)
    (hd : r.toNat = d.val) (v : Word) : InstrFrame i s (s.writeDest d v) := by
  refine .of_regs (l := [d, Reg.flag]) ?_ (writeDest_spec s d v).regs rfl rfl
  simp only [List.forall_mem_cons, List.not_mem_nil, false_imp_iff, implies_true, and_true]
  exact ⟨.inr (.inr (.inl ⟨r, hi, hd⟩)), .inl rfl⟩

theorem InstrFrame.emit {i : Instr} (hi : i.op = .syscall) (s : State) (e : Event) : InstrFrame i s (s.emit e) where
  regs _ _ := rfl
  memory _ := rfl
  legal h := ⟨h, rfl⟩
  trace := ⟨[e], rfl, by simp, fun h => absurd hi h⟩

theorem InstrFrame.serve {i : Instr} (hi : i.op = .syscall) {s t : State} {svc : Service} (h : serve s svc = .ok t) :
    InstrFrame i s t := by
  obtain ⟨e, rfl⟩ | ⟨v, rfl⟩ | rfl | ⟨a, bs, rfl⟩ := serve_inv h
  · exact .emit hi s e
  · exact .of_regs (l := [Reg.flag, Reg.ret]) (mayWrite_error i)
      (SameRegs.setReg (s := s) (t := s.drawn 1) (fun _ _ => rfl) (by simp) v) rfl rfl
  · refine .of_regs (l := [Reg.flag]) ?_ (exited_onlyRegs s).regs rfl rfl
    simp [MayWrite]
  · obtain ⟨hregs, htrace⟩ := storeBytes_frame bs (s.drawn 1) a
    exact .of_stored (mayWrite_error i) (by simp [hi]) hregs (wf_storeBytes bs (s.drawn 1) a) htrace

/-- Every body that ends in a state keeps the frame of its instruction. -/
theorem InstrFrame.body {i : Instr} {s t : State} (h : bodyOf i s = .ok t) : InstrFrame i s t := by
  cases hd : i.dest with
  | some r =>
    obtain ⟨n, d, v, hr, rfl⟩ := bodyOf_writesDest hd h
    exact (InstrFrame.writeDest hd hr v).of_drawn
  | none =>
    cases i <;> simp only [Instr.dest, reduceCtorEq] at hd
    case nop =>
      cases h
      exact .refl _ s
    case store =>
      obtain ⟨p, v, hb, rfl⟩ := storeBody_inv h
      exact .of_stored (l := []) (by simp) (by simp [Instr.op]) (fun _ _ => rfl)
        (fun hm => ⟨wf_storeLE 8 hm v hb, storeLE_size 8 _ _ _⟩) rfl
    case cmp =>
      obtain ⟨f, rfl⟩ := cmpBody_inv h
      exact .of_regs (l := [Reg.flag]) (by simp [MayWrite]) (onlyRegs_setReg s _ _).regs rfl rfl
    case push =>
      obtain ⟨x, hb, rfl⟩ := pushBody_inv h
      exact .of_stored (by simp [MayWrite, Instr.op]) (by simp [Instr.op]) (pushed_sameRegs s x)
        (fun hm => ⟨wf_pushMemory _ _ hm hb, pushMemory_size _ _ _ _⟩) rfl
    case call =>
      obtain ⟨p, hb, rfl⟩ := callBody_inv h
      exact .of_stored (by simp [MayWrite, Instr.op]) (by simp [Instr.op]) (called_sameRegs s p)
        (fun hm => ⟨wf_frameMemory hm hb, frameMemory_size _ _⟩) rfl
    case ret =>
      obtain ⟨hregs, -, htrace⟩ := retBody_inv h
      exact .of_regs (fun r hr => .inr (.inr (.inr (.inr (.inr ⟨rfl, hr⟩))))) hregs (retBody_mem h) htrace
    case syscall =>
      obtain ⟨svc, h⟩ := syscallBody_inv h
      exact .serve rfl h

/-- Every instruction that answers a next state keeps its frame, skipped, in error or run to its end. -/
theorem InstrFrame.exec {i : Instr} {s t : State} (h : exec i s = .next t) : InstrFrame i s t := by
  obtain ⟨u, hu, ht⟩ := exec_inv h
  have hut : InstrFrame i u t := by
    obtain rfl | rfl := ht
    · exact .refl i t
    · cases hb : bodyOf i u with
      | ok t => exact .body hb
      | error e => exact .raise i u e
  obtain rfl | rfl := hu
  · exact hut
  · exact hut.of_drawn

/-- R170: everything a step that answers a next state can do: none when halted; the error of a fetch outside memory; an
instruction; a word with an unassigned opcode, skipped or in error. -/
theorem step_inv {s t : State} (h : step s = .next t) :
    t = s ∨ (∃ e, t = s.interruptCheck.raise e) ∨
    (∃ w i, s.interruptCheck.fetch = .ok w ∧ decode w = .ok i ∧ exec i s.interruptCheck.advance = .next t) ∨
    ∃ u, (u = s.interruptCheck.advance ∨ u = s.interruptCheck.advance.drawn 1) ∧ (t = u ∨ ∃ e, t = u.raise e) := by
  obtain ⟨-, hs⟩ | ⟨-, e, -, hs⟩ | ⟨-, w, hw, hs⟩ := step_cases s <;> rw [hs] at h
  · cases h
    exact .inl rfl
  · cases h
    exact .inr (.inl ⟨e, rfl⟩)
  · unfold runWord at h
    split at h
    next i hd => exact .inr (.inr (.inl ⟨w, i, hw, hd, h⟩))
    next x hd =>
      obtain ⟨u, hu, ht⟩ := conditional_inv h
      exact .inr (.inr (.inr ⟨u, hu, ht.imp_right fun ht => ⟨_, ht⟩⟩))

@[simp] theorem interruptCheck_mem (s : State) : s.interruptCheck.mem = s.mem := by
  obtain ⟨-, h⟩ | ⟨-, h⟩ := interruptCheck_cases s <;> simp [h]

@[simp] theorem interruptCheck_trace (s : State) : s.interruptCheck.trace = s.trace := by
  obtain ⟨-, h⟩ | ⟨-, h⟩ := interruptCheck_cases s <;> simp [h]

theorem interruptCheck_isr (s : State) : s.interruptCheck.reg Reg.isr = s.reg Reg.isr := by
  obtain ⟨-, h⟩ | ⟨-, h⟩ := interruptCheck_cases s <;> rw [h]
  exact takeInterrupt_reg s (by decide) (by decide) (by decide)

/-- A step that runs no instruction writes no memory, emits nothing and leaves `$isr`. -/
theorem step_frame {s t : State} (h : step s = .next t) :
    (∃ w i, s.interruptCheck.fetch = .ok w ∧ decode w = .ok i ∧ InstrFrame i s.interruptCheck.advance t) ∨
    (t.mem = s.mem ∧ t.trace = s.trace ∧ t.reg Reg.isr = s.reg Reg.isr) := by
  have hisr : s.interruptCheck.advance.reg Reg.isr = s.reg Reg.isr := by
    rw [advance_reg _ (by decide), interruptCheck_isr]
  obtain rfl | ⟨e, rfl⟩ | ⟨w, i, hw, hd, he⟩ | ⟨u, rfl | rfl, rfl | ⟨e, rfl⟩⟩ := step_inv h
  · exact .inr ⟨rfl, rfl, rfl⟩
  · exact .inr ⟨by simp, by simp, by rw [raise_reg _ _ (by decide) (by decide), interruptCheck_isr]⟩
  · exact .inl ⟨w, i, hw, hd, .exec he⟩
  · exact .inr ⟨by simp, by simp, hisr⟩
  · exact .inr ⟨by simp, by simp, by rw [raise_reg _ _ (by decide) (by decide), hisr]⟩
  · exact .inr ⟨by simp, by simp, hisr⟩
  · exact .inr ⟨by simp, by simp, by rw [raise_reg _ _ (by decide) (by decide), drawn_reg, hisr]⟩

/-! ### The obligations -/

/-- Settles O52: the registers of the frame. -/
theorem instructionsChangeOnlyTheirRegisters : Obligations.InstructionsChangeOnlyTheirRegisters := by
  intro i s t h r hr
  by_contra hw
  exact hr ((InstrFrame.exec h).regs r hw)

/-- `$isr` is no register of an error, of the stack or of a frame: only a destination can name it. -/
theorem dest_of_mayWrite_isr {i : Instr} (h : MayWrite i Reg.isr) : i.dest = some 4 := by
  have hsaved : Reg.isr ∉ [Reg.ip, Reg.sp, Reg.fp] ++ savedRegs := by decide
  obtain h | h | ⟨d, hd, h4⟩ | ⟨-, h⟩ | ⟨-, h⟩ | ⟨-, h⟩ := h
  · exact absurd h (by decide)
  · exact absurd h (by decide)
  · rw [hd, BitVec.eq_of_toNat_eq (y := 4) h4]
  · exact absurd h (by decide)
  · exact absurd h (by decide)
  · exact absurd h hsaved

/-- Settles O55: the step runs an instruction, and `$isr` is outside its frame unless it is the destination. -/
theorem onlyInstructionsChangeIsr : Obligations.OnlyInstructionsChangeIsr := by
  intro s t h hne
  obtain ⟨w, i, hw, hd, hf⟩ | ⟨-, -, hsame⟩ := step_frame h
  · refine ⟨w, i, hw, hd, dest_of_mayWrite_isr ?_⟩
    by_contra hn
    exact hne (by rw [hf.regs Reg.isr hn, advance_reg _ (by decide), interruptCheck_isr])
  · exact absurd hsame hne

/-- Settles O57: interrupt entry and the advance of `$ip` keep memory, and the frame keeps it legal. -/
theorem stepKeepsTheStateLegal : Obligations.StepKeepsTheStateLegal := by
  intro s t hs h
  obtain ⟨w, i, -, -, hf⟩ | ⟨hm, -, -⟩ := step_frame h
  · have hlegal : s.interruptCheck.advance.legal := by rw [State.legal, advance_mem, interruptCheck_mem]; exact hs
    simpa using hf.legal hlegal
  · rw [State.legal, hm]
    exact ⟨hs, rfl⟩

/-- Settles O53: memory is the same, so every read of it is. -/
theorem onlyStoringInstructionsChangeMemory : Obligations.OnlyStoringInstructionsChangeMemory := by
  intro i s t hi h
  have hm : t.mem = s.mem := (InstrFrame.exec h).memory hi
  exact ⟨.of_eq hm, fun a n => by rw [State.memRead, hm, State.memRead]⟩

/-- Settles O54: the trace of the frame, over one instruction and over a step. -/
theorem traceOnlyGrowsBySyscall : Obligations.TraceOnlyGrowsBySyscall := by
  constructor
  · intro i s t h hi
    obtain ⟨es, hes, -, hnil⟩ := (InstrFrame.exec h).trace
    rw [hes, hnil hi, List.append_nil]
  · intro s t h
    obtain ⟨w, i, -, -, hf⟩ | ⟨-, ht, -⟩ := step_frame h
    · obtain ⟨es, hes, hlen, -⟩ := hf.trace
      exact ⟨es, by simpa using hes, hlen⟩
    · exact ⟨[], by simpa using ht, by simp⟩

end Sys2Proof.Machine
end

section
/-! PROOFS. The fetch-execute cycle (R170), halting (R183), interrupt entry (R177, R178) and errors (R172). -/

namespace Sys2Proof.Machine

/-! ### One step, by what the processor does -/

theorem step_of_halted {s : State} (h : s.running = false) : step s = .next s := by
  rw [step, cycle, h]
  rfl

theorem step_of_running {s : State} (h : s.running = true) : step s = fetchAndRun s.interruptCheck := by
  rw [step, cycle, if_pos h]

theorem interruptCheck_of_not_due {s : State} (h : s.interruptDue = false) : s.interruptCheck = s := by
  rw [State.interruptCheck, h]
  rfl

theorem interruptCheck_of_due {s : State} (h : s.interruptDue = true) : s.interruptCheck = s.takeInterrupt := by
  rw [State.interruptCheck, if_pos h]

/-- R170 items 3 to 5, when the fetch succeeds. -/
theorem fetchAndRun_of_fetch {s : State} {w : Word} (h : s.fetch = .ok w) : fetchAndRun s = runWord w s.advance := by
  rw [fetchAndRun, h]

theorem fetchAndRun_of_error {s : State} {e : Err} (h : s.fetch = .error e) : fetchAndRun s = .next (s.raise e) := by
  rw [fetchAndRun, h]

theorem runWord_of_decode {w : Word} {i : Instr} (h : decode w = .ok i) (s : State) : runWord w s = exec i s := by
  rw [runWord, h]

theorem runWord_of_unassigned {w : Word} {u : UnassignedOpcode} (h : decode w = .error u) (s : State) :
    runWord w s = execUnassigned u s := by
  rw [runWord, h]

/-- R170: the word at `$ip` runs, when no interrupt is due. -/
theorem step_of_fetch {s : State} {w : Word} (hr : s.running = true) (hi : s.interruptDue = false)
    (hf : s.fetch = .ok w) : step s = runWord w s.advance := by
  rw [step_of_running hr, interruptCheck_of_not_due hi, fetchAndRun_of_fetch hf]

/-- R170: the instruction at `$ip` runs, when no interrupt is due. -/
theorem step_of_decode {s : State} {i : Instr} (hr : s.running = true) (hi : s.interruptDue = false)
    (hb : s.mem.InBounds (s.reg Reg.ip) 8) (hd : decode (s.mem.loadLE (s.reg Reg.ip).toNat 8) = .ok i) :
    step s = exec i s.advance := by
  rw [step_of_fetch hr hi (memRead_ok hb), runWord_of_decode hd]

/-! ### Interrupts -/

theorem running_takeInterrupt (s : State) : s.takeInterrupt.running = s.running := by
  rw [State.running, takeInterrupt_flag, flagExec_setInInt, State.running]

/-- R177: inside a handler no interrupt is due. -/
theorem interruptDue_takeInterrupt (s : State) : s.takeInterrupt.interruptDue = false := by
  rw [State.interruptDue, takeInterrupt_flag, flagInInt_setInInt, Bool.not_true, Bool.and_false]

theorem and_ne_zero_iff (a b : Word) :
    a &&& b ≠ 0 ↔ ∃ i, i < 64 ∧ a.getLsbD i = true ∧ b.getLsbD i = true := by
  constructor
  · intro h
    by_contra hn
    refine h (BitVec.eq_of_getLsbD_eq fun i hi => ?_)
    have hbit : ¬ (a.getLsbD i = true ∧ b.getLsbD i = true) := fun hab => hn ⟨i, hi, hab⟩
    simpa using hbit
  · rintro ⟨i, -, ha, hb⟩ h
    have hbit := congrArg (fun x => x.getLsbD i) h
    simp [ha, hb] at hbit

/-! ### The loader -/

/-- Memory has no part in the interrupt check. -/
theorem withMem_interruptCheck (s : State) (m : Memory) :
    ({ s with mem := m } : State).interruptCheck = { s.interruptCheck with mem := m } := by
  have hdue : ({ s with mem := m } : State).interruptDue = s.interruptDue := rfl
  cases h : s.interruptDue with
  | false => rw [interruptCheck_of_not_due (hdue.trans h), interruptCheck_of_not_due h]
  | true =>
    rw [interruptCheck_of_due (hdue.trans h), interruptCheck_of_due h]
    rfl

theorem tableWord_64 (w : Nat) : tableWord 64 w = BitVec.ofNat 64 w := by
  apply BitVec.eq_of_toNat_eq
  simp [tableWord]

/-- A state made ready fetches inside memory: at `$ip`, or at the handler when an interrupt is due. -/
theorem readyToFetch_inBounds {s : State} (h : Config.legalMemSize s.mem.size) :
    s.mem.InBounds s.readyToFetch.fetchAddress 8 := by
  obtain ⟨-, hmin, -⟩ := h
  obtain ⟨-, -, hip⟩ := readyToFetch_spec s (by omega)
  rw [State.fetchAddress]
  cases hd : s.readyToFetch.interruptDue with
  | false =>
    rw [interruptCheck_of_not_due hd]
    exact hip hd
  | true =>
    rw [interruptCheck_of_due hd, takeInterrupt_ip]
    exact (by omega : 0x400 + 8 ≤ s.mem.size)

/-- A state made ready runs, from the same memory. -/
theorem readyToFetch_running {s : State} (h : Config.legalMemSize s.mem.size) :
    s.readyToFetch.mem = s.mem ∧ s.readyToFetch.running = true := by
  obtain ⟨-, hmin, -⟩ := h
  obtain ⟨hmem, hrun, -⟩ := readyToFetch_spec s (by omega)
  exact ⟨hmem, hrun⟩

/-- The word placed is the word fetched. -/
theorem fetch_placeWord {s : State} (h : Config.legalMemSize s.mem.size) (w : Word) :
    (s.placeWord w).interruptCheck.fetch = .ok w := by
  obtain ⟨hmem, -⟩ := readyToFetch_running h
  have hb := readyToFetch_inBounds h
  rw [State.placeWord, withMem_interruptCheck, State.fetch, withMem_reg, ← State.fetchAddress, memRead_ok_iff]
  refine ⟨?_, loadLE_storeLE_self 8 _ _ _⟩
  rw [Memory.InBounds, withMem_mem, storeLE_size 8, hmem]
  exact hb

/-! ### Errors -/

/-- R172: a state in which an error was taken has the error's code in `flag[7:5]`. -/
theorem ErrorRecorded.errorCode {s t : State} {e : Err} (h : ErrorRecorded s t e) : t.errorCode = e.code := by
  apply BitVec.eq_of_getLsbD_eq
  intro i hi
  have hbit := h.flag (5 + i) (by omega)
  rw [if_neg (by omega), if_pos (by omega), Nat.add_sub_cancel_left] at hbit
  simp [State.errorCode, flagErr, hi, hbit]

theorem ErrorRecorded.halted {s t : State} {e : Err} (h : ErrorRecorded s t e) : t.running = false := by
  have hbit := h.flag 4 (by omega)
  rwa [if_pos rfl] at hbit

theorem code_ne_zero (e : Err) : e.code ≠ 0 := by cases e <;> simp [Err.code]

/-! ### The obligations -/

/-- Settles O6: the two clauses about `$ip` are the fetch, and the advance is `State.advance`. -/
theorem stepRunsTheDecodedInstruction : Obligations.StepRunsTheDecodedInstruction :=
  fun _ _ hr hi hb hd => step_of_decode hr hi hb hd

/-- Settles O7: an unassigned opcode is a body that raises, under the test of its word. -/
theorem unassignedOpcodeRaisesOrIsSkipped : Obligations.UnassignedOpcodeRaisesOrIsSkipped := by
  intro s w hr hi hf h20
  have hd : decode w = .error ⟨opField w, testField w⟩ := by
    obtain ⟨o, ho, -⟩ | ⟨-, hd⟩ := decode_cases w
    · have hlt := code_lt o
      rw [← ho, opField] at hlt
      exact absurd h20 (Nat.not_le.mpr hlt)
    · exact hd
  have hstep : step s = execUnassigned ⟨opField w, testField w⟩ s.advance := by
    rw [step_of_fetch hr hi hf, runWord_of_unassigned hd]
  rw [hstep, execUnassigned]
  constructor
  · intro hc
    rw [conditional_passes (by rw [Passes, advance_flag]; exact hc), settle_error]
    exact ⟨_, rfl, raise_spec _ _⟩
  · intro hc
    rw [conditional_fails (by rw [advance_flag]; exact hc)]

/-- Settles O8: the fetch is a read out of bounds, and its error is raised on the state itself. -/
theorem fetchOutsideMemoryRaisesSegfault : Obligations.FetchOutsideMemoryRaisesSegfault := by
  intro s hr hi hb
  refine ⟨_, ?_, raise_spec s _⟩
  rw [step_of_running hr, interruptCheck_of_not_due hi, fetchAndRun_of_error (memRead_error hb)]

/-- Settles O9: `s.takeInterrupt` is the state in between, from which no interrupt is due. -/
theorem interruptEntrySavesAndRunsTheHandler : Obligations.InterruptEntrySavesAndRunsTheHandler := by
  intro s hr hi
  have hrun : s.takeInterrupt.running = true := by rw [running_takeInterrupt, hr]
  have hdue := interruptDue_takeInterrupt s
  refine ⟨s.takeInterrupt, ?_, hrun, hdue, takeInterrupt_iip s, takeInterrupt_ip s, fun i _ => ?_,
    ⟨fun q hq => ?_, SameMemory.of_eq rfl, rfl⟩, rfl⟩
  · rw [step_of_running hr, step_of_running hrun, interruptCheck_of_due hi, interruptCheck_of_not_due hdue]
  · rw [takeInterrupt_flag, getLsbD_setInInt]
  · simp only [List.mem_cons, List.not_mem_nil, or_false, not_or] at hq
    exact takeInterrupt_reg s hq.1 hq.2.1 hq.2.2

/-- Settles O10: a conjunction of words that is not zero has a bit set in both. -/
theorem interruptIsDueWhenPendingAndUnmasked : Obligations.InterruptIsDueWhenPendingAndUnmasked := by
  intro s
  rw [← and_ne_zero_iff, State.interruptDue, flagInInt, Bool.and_eq_true, bne_iff_ne, Bool.not_eq_true']

/-- Settles O11: by induction on the steps, each of which answers the same halted state. -/
theorem haltedProcessorStaysAsItIs : Obligations.HaltedProcessorStaysAsItIs := by
  intro s t hs h
  induction h with
  | start => rfl
  | next _ hu ih =>
    subst ih
    exact (Host.Outcome.next.inj ((step_of_halted hs).symm.trans hu)).symm

/-- Settles O12: the state with the word placed runs, and fetches it. -/
theorem placedWordIsTheNextToRun : Obligations.PlacedWordIsTheNextToRun := by
  intro s w h
  have hrun : (s.placeWord (BitVec.ofNat 64 w)).running = true := (readyToFetch_running h).2
  rw [State.withFetchWord, tableWord_64, step_of_running hrun, fetchAndRun_of_fetch (fetch_placeWord h _)]

/-- Settles O49: `ErrorRecorded` fixes the bits read. -/
theorem anErrorHaltsWithItsCode : Obligations.AnErrorHaltsWithItsCode := by
  intro s t e ⟨hrec, _⟩
  refine ⟨?_, hrec.errorCode, hrec.ret, step_of_halted hrec.halted⟩
  rw [State.failed, State.halted, hrec.halted, hrec.errorCode, Bool.not_false, Bool.true_and, bne_iff_ne]
  exact code_ne_zero e

/-- Settles O56: `$ip` is outside the frame of the instruction, which runs with `$ip` advanced. -/
theorem ipMovesByEightUnlessWritten : Obligations.IpMovesByEightUnlessWritten := by
  intro s t i hr hi hb hd hdest hcall hret h
  have hip : ¬ MayWrite i Reg.ip := by
    rintro (h | h | ⟨d, hd, h0⟩ | ⟨-, h⟩ | ⟨h, -⟩ | ⟨h, -⟩)
    · exact absurd h (by decide)
    · exact absurd h (by decide)
    · exact hdest (by rw [hd, BitVec.eq_of_toNat_eq (y := 0) h0])
    · exact absurd h (by decide)
    · exact hcall h
    · exact hret h
  rw [step_of_decode hr hi hb hd] at h
  rw [(InstrFrame.exec h).regs Reg.ip hip, advance_ip]

end Sys2Proof.Machine
end

section
/-! PROOFS. The conditional test (R62 to R64, R75) and what it makes of an instruction. -/

namespace Sys2Proof.Machine

/-! ### The comparison tests -/

/-- R63, D19: the nine codes whose test compares `flag[2:0]` with their low bits. -/
def comparisonTests : List (BitVec 4) :=
  [0b0000#4, 0b0001#4, 0b0010#4, 0b0011#4, 0b0110#4, 0b0111#4, 0b1010#4, 0b1011#4, 0b1110#4]

/-- R63: a comparison test comes to what `Match` says of its low bits. -/
theorem evalTest_of_comparison {c : BitVec 4} (h : c ∈ comparisonTests) (f : Word) :
    evalTest c f = .ofMatch (matchCodes (c.extractLsb' 0 3) (flagCmp f)) := by
  have hcode : c ≠ 0b1111 ∧ c ≠ 0b1001 ∧ c ≠ 0b1000 ∧ relations (c.extractLsb' 0 3) ≠ none := by
    revert c
    decide
  obtain ⟨h15, h9, h8, hrel⟩ := hcode
  rw [evalTest_comparison c f h15 h9 h8, if_neg hrel]

/-- D19: bit 3 of a comparison test is not looked at. -/
theorem evalTest_congr_low {c c' : BitVec 4} (h : c ∈ comparisonTests) (h' : c' ∈ comparisonTests)
    (hlow : c.extractLsb' 0 3 = c'.extractLsb' 0 3) (f : Word) : evalTest c f = evalTest c' f := by
  rw [evalTest_of_comparison h, evalTest_of_comparison h', hlow]

/-- R63: the six tests that have a suffix, as the match function has them. -/
theorem map_evalTest_comparison (f : Word) :
    [0b0000#4, 0b0001#4, 0b0010#4, 0b0011#4, 0b0110#4, 0b0111#4].map (fun c => evalTest c f) =
      [0b000#3, 0b001#3, 0b010#3, 0b011#3, 0b110#3, 0b111#3].map fun t => .ofMatch (matchCodes t (flagCmp f)) := by
  simp (disch := decide) only [List.map_cons, List.map_nil, evalTest_of_comparison]
  rfl

/-- U2: where `flag[2:0]` has no meaning a comparison test has none. -/
theorem evalTest_unspecified {c : BitVec 4} {f : Word} (h : c ∈ comparisonTests)
    (hf : flagCmp f = 0b100 ∨ flagCmp f = 0b101) : evalTest c f = .unspecified := by
  have hrel : relations (flagCmp f) = none := by rcases hf with hf | hf <;> rw [hf] <;> rfl
  rw [evalTest_of_comparison h, matchCodes, hrel]
  cases relations (c.extractLsb' 0 3) <;> rfl

/-! ### What a test makes of an instruction -/

/-- R75, U1: a reserved test stops its instruction. -/
theorem exec_of_reserved {i : Instr} {c : BitVec 4} {s : State} (hi : i.test = some c) (hc : testReserved c = true) :
    exec i s = .fault (.reservedTest c) := by
  rw [exec_eq_conditional hi, conditional_reserved ((evalTest_reserved_iff c s.flag).mpr hc)]

/-- An instruction whose test is not reserved answers a next state. -/
theorem exec_next_of_not_reserved {i : Instr} {c : BitVec 4} (hi : i.test = some c) (hc : testReserved c = false)
    (s : State) : ∃ t, exec i s = .next t := by
  rw [exec_eq_conditional hi]
  cases h : evalTest c s.flag with
  | holds => exact ⟨_, conditional_passes h _⟩
  | fails => exact ⟨_, conditional_fails h _⟩
  | unspecified => exact ⟨_, conditional_unspecified h _⟩
  | reserved =>
    have := (evalTest_reserved_iff c s.flag).mp h
    exact absurd (hc.symm.trans this) (by decide)

/-- The same instruction under the test that always holds. -/
theorem exec_always {i : Instr} {c : BitVec 4} (hi : i.test = some c) (s : State) :
    exec (i.withTest 0b1111) s = .next (settle s (bodyOf i s)) := by
  have htest : (i.withTest 0b1111).test = some 0b1111 := by cases i <;> cases hi <;> rfl
  rw [exec_eq_conditional htest, conditional_passes (evalTest_always s.flag), bodyOf_withTest]

/-! ### The obligations -/

/-- Settles O13: each row is the match function of one value of `flag[2:0]`. -/
theorem conditionalTestTable : Obligations.ConditionalTestTable := by
  intro f row
  refine ⟨?_, ?_, ?_, ?_, ?_, ?_⟩ <;>
  · intro h
    show List.map _ _ = List.map _ _
    rw [map_evalTest_comparison, flagCmp, h]
    decide

/-- Settles O14: the codes tested for by name, and then pairs of comparison tests with the same low bits. -/
theorem zeroAndUnconditionalTests : Obligations.ZeroAndUnconditionalTests := by
  intro f
  refine ⟨evalTest_always f, ?_, ?_, evalTest_congr_low (by decide) (by decide) rfl f,
    evalTest_congr_low (by decide) (by decide) rfl f, evalTest_congr_low (by decide) (by decide) rfl f⟩
  · rw [evalTest, if_neg (by decide), if_pos rfl, flagZ]
  · rw [evalTest, if_neg (by decide), if_neg (by decide), if_pos rfl, flagZ]

/-- Settles O15: a failing test skips the body, whichever it is. -/
theorem skippedInstructionChangesNothing : Obligations.SkippedInstructionChangesNothing :=
  fun _ _ _ => exec_of_fails

/-- Settles O16: of the four results of a test only `reserved` stops, and `nop` has no test. -/
theorem onlyReservedTestsStop : Obligations.OnlyReservedTestsStop := by
  intro i s
  refine ⟨fun c => exec_of_reserved, fun h => ?_⟩
  cases hi : i.test with
  | none => exact ⟨s, by rw [eq_nop_of_test_none hi, exec_nop]⟩
  | some c => exact exec_next_of_not_reserved hi (h c hi) s

/-- Settles O17: the free bit chooses between the two. -/
theorem unspecifiedTestSkipsOrRuns : Obligations.UnspecifiedTestSkipsOrRuns := by
  intro i c s hi hc hf
  rw [exec_eq_conditional hi, conditional_unspecified (evalTest_unspecified hc hf), exec_always hi]
  cases Config.freeBit s.draws with
  | true => exact .inr rfl
  | false => exact .inl rfl

end Sys2Proof.Machine
end

section
/-! PROOFS. Reset (R36), memory accesses (R44) and operands (R70, R71). -/

namespace Sys2Proof.Machine

/-! ### Reset (R36) -/

@[simp] theorem resetWith_mem (m : Memory) : (State.resetWith m).mem = m := rfl

@[simp] theorem resetWith_ip (m : Memory) : (State.resetWith m).reg Reg.ip = m.loadLE 0 8 := by
  simp [State.resetWith, State.reg]

/-- R36: every register but `$ip` is at the value of the table. -/
theorem resetWith_reg (m : Memory) {r : RegNo} (h : r ≠ Reg.ip) :
    (State.resetWith m).reg r =
      if r = Reg.imr then 0xFFFFFFFFFFFFFFFF else if r = Reg.flag then 0x10
      else if r = Reg.fp ∨ r = Reg.sp then BitVec.ofNat 64 m.size else 0 := by
  simp only [State.resetWith, resetRegs, State.reg, Fin.getElem_fin, Vector.getElem_set, Vector.getElem_replicate,
    Fin.ext_iff] at h ⊢
  grind

/-! ### Memory accesses (R44) -/

theorem sameMemoryOutside_storeLE (s : State) (a n : Nat) (v : BitVec (8 * n)) :
    SameMemoryOutside s { s with mem := s.mem.storeLE a n v } a n where
  size := storeLE_size n _ _ _
  bytes j hj := by rw [withMem_mem, byte_storeLE, if_neg (by omega)]

/-- R44: the bytes a store leaves in its place. -/
theorem byte_storeLE_self (n : Nat) (m : Memory) (a : Nat) (v : BitVec (8 * n)) {k : Nat} (hk : k < n) :
    (m.storeLE a n v).byte (a + k) = v.extractLsb' (8 * k) 8 := by
  rw [byte_storeLE, if_pos (by omega), Nat.add_sub_cancel_left]

/-! ### Operands (R70, R71) -/

theorem resolveValue_reg {s : State} {r : BitVec 8} {k : RegNo} (h : r.toNat = k.val) :
    resolveValue s (.reg r) = .ok (s.reg k) := by
  simp only [resolveValue, checkReg_ok h, bind, Except.bind, pure, Except.pure]

theorem resolveValue_ind {s : State} {r : BitVec 8} {k : RegNo} (h : r.toNat = k.val) (n : BitVec 24) :
    resolveValue s (.ind r n) = s.memRead (s.reg k + n.signExtend 64) 8 := by
  simp only [resolveValue, checkReg_ok h, bind, Except.bind, indirect]

theorem effAddr_ind {s : State} {r : BitVec 8} {k : RegNo} (h : r.toNat = k.val) (n : BitVec 24) :
    effAddr s (.ind r n) = .ok (s.reg k + n.signExtend 64) := by
  simp only [effAddr, checkReg_ok h, bind, Except.bind, pure, Except.pure, indirect]

theorem operands_badReg {r : BitVec 8} (h : 32 ≤ r.toNat) (s : State) (n : BitVec 24) :
    resolveValue s (.reg r) = .error (.registerSegfault r) ∧
    resolveValue s (.ind r n) = .error (.registerSegfault r) ∧
    effAddr s (.ind r n) = .error (.registerSegfault r) := by
  simp only [resolveValue, effAddr, checkReg_error h, bind, Except.bind, and_self]

/-! ### The obligations -/

/-- Settles O58: reset keeps the loaded memory, and `State.reset` loads a blank one. -/
theorem resetIsLegal : Obligations.ResetIsLegal :=
  ⟨wf_blank (by decide), fun _ h => h⟩

/-- Settles O59: the table, register by register. -/
theorem resetLeavesTheValuesOfTheSpec : Obligations.ResetLeavesTheValuesOfTheSpec := by
  intro m s
  refine ⟨resetWith_mem m, rfl, resetWith_ip m, ?_, ?_, ?_, ?_, ?_, ?_, ?_, fun r hr => ?_⟩
  iterate 7 exact resetWith_reg m (by decide)
  have hne : ∀ q : RegNo, q.val < 8 → r ≠ q := by
    rintro q hq rfl
    omega
  rw [resetWith_reg m (hne _ (by decide)), if_neg (hne _ (by decide)), if_neg (hne _ (by decide)),
    if_neg (not_or.mpr ⟨hne _ (by decide), hne _ (by decide)⟩)]

/-- Settles O18: one test of the bounds decides the write and the read. -/
theorem memoryWriteIsReadBack : Obligations.MemoryWriteIsReadBack := by
  intro s a n v
  constructor
  · intro hb
    refine ⟨_, memWrite_ok hb v, ?_, fun k => byte_storeLE_self n _ _ v, sameMemoryOutside_storeLE s a.toNat n v,
      fun _ _ => rfl, rfl⟩
    rw [memRead_ok_iff, Memory.InBounds, withMem_mem, storeLE_size]
    exact ⟨hb, loadLE_storeLE_self n _ _ v⟩
  · intro hb
    exact ⟨memWrite_error (Nat.not_le.mpr hb) v, memRead_error (Nat.not_le.mpr hb)⟩

/-- Settles O19: the two memory modes are one read, at the address of R47. -/
theorem valueModesResolve : Obligations.ValueModesResolve := by
  intro s
  refine ⟨fun _ => rfl, fun r k => resolveValue_reg, fun r hr => ⟨?_, fun n => ?_⟩, ?_⟩
  · exact (operands_badReg hr s 0).1
  · exact (operands_badReg hr s n).2.1
  intro v a hv
  have hread : resolveValue s v = s.memRead a 8 := by
    obtain ⟨m, rfl, rfl⟩ | ⟨r, n, k, rfl, hk, rfl⟩ := hv
    · rfl
    · exact resolveValue_ind hk n
  rw [hread]
  exact ⟨fun hb => ⟨_, memRead_ok hb, fun j hj => extract_loadLE 8 s.mem a.toNat j hj⟩,
    fun hb => memRead_error (Nat.not_le.mpr hb)⟩

/-- Settles O20: only the base register is checked. -/
theorem addressModesResolve : Obligations.AddressModesResolve :=
  fun s => ⟨fun _ => rfl, fun _ n _ hk => effAddr_ind hk n, fun _ n hr => (operands_badReg hr s n).2.2⟩

end Sys2Proof.Machine
end

section
/-! PROOFS. Data transfer (R90 to R94). -/

namespace Sys2Proof.Machine

/-! ### `load`, `loadu` and `store` -/

theorem exec_load {c : BitVec 4} {r : BitVec 8} {v : Value} {s : State} {d : RegNo} {x : Word} (hc : Passes c s)
    (hr : r.toNat = d.val) (hv : resolveValue s v = .ok x) : exec (.load c r v) s = .next (s.writeDest d x) := by
  rw [exec_eq_conditional rfl, conditional_passes hc, bodyOf, loadBody, withRegValue_ok hr hv, settle_ok]

theorem exec_loadu {c : BitVec 4} {r : BitVec 8} {v : Value} {s : State} {d : RegNo} {x : Word} (hc : Passes c s)
    (hr : r.toNat = d.val) (hv : resolveValue s v = .ok x) :
    exec (.loadu c r v) s = .next (s.writeDest d (loadUpper (s.reg d) (lowHalf x))) := by
  rw [exec_eq_conditional rfl, conditional_passes hc, bodyOf, loaduBody, withRegValue_ok hr hv, settle_ok]

/-- R91: the two halves of what `loadu` writes. -/
theorem extract_loadUpper (old : Word) (high : Half) :
    (loadUpper old high).extractLsb' 32 32 = high ∧
    (loadUpper old high).extractLsb' 0 32 = old.extractLsb' 0 32 :=
  ⟨extract_setField_self _ _ _ (by omega), extract_setField_other _ _ _ _ _ (by omega) (by omega)⟩

/-- R92: a word is put together from its halves. -/
theorem loadUpper_halves (x : Word) :
    loadUpper ((x.extractLsb' 0 32).setWidth 64) (x.extractLsb' 32 32) = x := by
  apply BitVec.eq_of_getLsbD_eq
  intro i hi
  rw [loadUpper, getLsbD_setField _ _ _ _ (by omega)]
  split
  · next h =>
    have h32 : i - 32 < 32 := by omega
    have hsum : 32 + (i - 32) = i := by omega
    simp [h32, hsum]
  · next h =>
    have h32 : i < 32 := by omega
    simp [h32, hi]

theorem lowHalf_setWidth (n : Half) : lowHalf (n.setWidth 64) = n := by
  apply BitVec.eq_of_getLsbD_eq
  intro i hi
  have h64 : i < 64 := by omega
  simp [lowHalf, hi, h64]

theorem storeBody_of_operands {r : BitVec 8} {a : Addr} {s : State} {k : RegNo} {p : Word} (hr : r.toNat = k.val)
    (ha : effAddr s a = .ok p) : storeBody r a s = s.memWrite p 8 (s.reg k) := by
  simp only [storeBody, checkReg_ok hr, ha, bind, Except.bind]

theorem storeBody_badReg {r : BitVec 8} (hr : 32 ≤ r.toNat) (a : Addr) (s : State) :
    storeBody r a s = .error (.registerSegfault r) := by
  simp only [storeBody, checkReg_error hr, bind, Except.bind]

theorem storeBody_badAddr {r : BitVec 8} {a : Addr} {s : State} {k : RegNo} {e : Err} (hr : r.toNat = k.val)
    (ha : effAddr s a = .error e) : storeBody r a s = .error e := by
  simp only [storeBody, checkReg_ok hr, ha, bind, Except.bind]

/-- R94: the body of a `store` in bounds. -/
theorem storeBody_inBounds {r : BitVec 8} {a : Addr} {s : State} {k : RegNo} {p : Word} (hr : r.toNat = k.val)
    (ha : effAddr s a = .ok p) (hb : s.mem.InBounds p 8) :
    storeBody r a s = .ok { s with mem := s.mem.storeLE p.toNat 8 (s.reg k) } := by
  rw [storeBody_of_operands hr ha, memWrite_ok hb]

/-! ### The obligations -/

/-- Settles O22: the shared checks, and a destination write of the value. -/
theorem loadWritesTheValue : Obligations.LoadWritesTheValue := by
  intro c r v s hc
  exact checksRegValue_of (fun d x => .ok (s.writeDest d x)) rfl hc rfl fun d x => ⟨_, rfl, writeDest_spec s d x⟩

/-- Settles O23: the word written is `loadUpper` of the register and the value. -/
theorem loaduWritesTheUpperHalf : Obligations.LoaduWritesTheUpperHalf := by
  intro c r v s hc
  refine checksRegValue_of (fun d x => .ok (s.writeDest d (loadUpper (s.reg d) (lowHalf x)))) rfl hc rfl fun d x => ?_
  obtain ⟨hhigh, hlow⟩ := extract_loadUpper (s.reg d) (lowHalf x)
  exact ⟨_, rfl, _, hhigh, hlow, writeDest_spec s d _⟩

/-- Settles O24: `load` leaves the low half zero-extended, above which `loadu` puts the high half. -/
theorem loadwLeavesTheImmediate : Obligations.LoadwLeavesTheImmediate := by
  intro r d x s hr hip hflag
  set t := s.writeDest d ((x.extractLsb' 0 32).setWidth 64) with ht
  have hload : exec (.load 15 r (.imm (x.extractLsb' 0 32))) s = .next t :=
    exec_load (evalTest_always s.flag) hr rfl
  have hd : t.advance.reg d = (x.extractLsb' 0 32).setWidth 64 := by
    rw [advance_reg _ hip, (writeDest_spec s d _).dest hflag]
  have hloadu : exec (.loadu 15 r (.imm (x.extractLsb' 32 32))) t.advance = .next (t.advance.writeDest d x) := by
    rw [exec_loadu (evalTest_always t.advance.flag) hr rfl, hd, lowHalf_setWidth, loadUpper_halves]
  have hu := writeDest_spec t.advance d x
  refine ⟨t, _, hload, hloadu, hu.dest hflag, (hu.flag 3 (by omega)).trans (if_pos rfl), fun q hq => ?_,
    SameMemory.of_eq rfl, rfl⟩
  simp only [List.mem_cons, List.not_mem_nil, or_false, not_or] at hq
  obtain ⟨hqd, hqf, hqi⟩ := hq
  rw [hu.regs q (by simp [hqd, hqf]), advance_reg _ hqi, (writeDest_spec s d _).regs q (by simp [hqd, hqf])]

/-- Settles O25: the checks of the operands, then the bounds of the write. -/
theorem storeWritesTheRegister : Obligations.StoreWritesTheRegister := by
  intro c r a s hc
  refine ⟨fun hr => runsTo_of_error rfl hc (storeBody_badReg hr a s), fun k hk => ⟨fun e ha =>
    runsTo_of_error rfl hc (storeBody_badAddr hk ha), fun p ha => ⟨fun hb => ?_, fun hb => ?_⟩⟩⟩
  · exact runsTo_of_error rfl hc ((storeBody_of_operands hk ha).trans (memWrite_error (Nat.not_le.mpr hb) _))
  · exact runsTo_of_ok rfl hc (storeBody_inBounds hk ha hb)
      ⟨fun j hj => byte_storeLE_self 8 _ _ _ hj, sameMemoryOutside_storeLE s _ 8 _, fun _ _ => rfl, rfl⟩

/-- Settles O26: the fetch is a read of the bytes stored. -/
theorem fetchSeesTheStore : Obligations.FetchSeesTheStore := by
  intro c r a k p s hc hk ha hb
  have hstore : exec (.store c r a) s = .next { s with mem := s.mem.storeLE p.toNat 8 (s.reg k) } := by
    rw [exec_eq_conditional rfl, conditional_passes hc, bodyOf, storeBody_inBounds hk ha hb, settle_ok]
  refine ⟨_, hstore, ?_⟩
  rw [State.fetch, reg_setReg_self, memRead_ok_iff, setReg_mem, withMem_mem, Memory.InBounds, storeLE_size 8]
  exact ⟨hb, loadLE_storeLE_self 8 _ _ _⟩

end Sys2Proof.Machine
end

section
/-! PROOFS. The logical instructions (R120 to R126), and the idioms made of them (R160, R161). -/

namespace Sys2Proof.Machine

/-! ### `not` -/

theorem notBody_ok {r1 r2 : BitVec 8} {s : State} {d a : RegNo} (hd : r1.toNat = d.val) (ha : r2.toNat = a.val) :
    notBody r1 r2 s = .ok (s.writeDest d (~~~(s.reg a))) := by
  simp only [notBody, checkReg_ok hd, checkReg_ok ha, bind, Except.bind, pure, Except.pure]

theorem notBody_badDest {r1 : BitVec 8} (h : 32 ≤ r1.toNat) (r2 : BitVec 8) (s : State) :
    notBody r1 r2 s = .error (.registerSegfault r1) := by
  simp only [notBody, checkReg_error h, bind, Except.bind]

theorem notBody_badSource {r1 r2 : BitVec 8} {d : RegNo} (hd : r1.toNat = d.val) (h : 32 ≤ r2.toNat) (s : State) :
    notBody r1 r2 s = .error (.registerSegfault r2) := by
  simp only [notBody, checkReg_ok hd, checkReg_error h, bind, Except.bind]

/-! ### `and`, `or`, `xor` -/

/-- R126: a logical instruction with a value writes its operation of the source and the value. -/
theorem checksRegRegValue_logic {i : Instr} {c : BitVec 4} {r1 r2 : BitVec 8} {v : Value} {s : State}
    {op : Word → Word → Word} {bit : Bool → Bool → Bool} (h : exec i s = conditional c s (logicBody op r1 r2 v))
    (hc : Passes c s) (hop : ∀ a x i, (op a x).getLsbD i = bit (a.getLsbD i) (x.getLsbD i)) :
    ChecksRegRegValue i s r1 r2 v fun d a x t =>
      ∃ w : Word, (∀ i, i < 64 → w.getLsbD i = bit (a.getLsbD i) (x.getLsbD i)) ∧ DestWritten s t d w :=
  checksRegRegValue_of (fun d a x => .ok (s.writeDest d (op a x))) h hc rfl fun d a x =>
    ⟨_, rfl, op a x, fun i _ => hop a x i, writeDest_spec s d _⟩

theorem exec_or {c : BitVec 4} {r1 r2 : BitVec 8} {v : Value} {s : State} {d a : RegNo} {x : Word} (hc : Passes c s)
    (hd : r1.toNat = d.val) (ha : r2.toNat = a.val) (hv : resolveValue s v = .ok x) :
    exec (.or c r1 r2 v) s = .next (s.writeDest d (s.reg a ||| x)) := by
  rw [exec_eq_conditional rfl, conditional_passes hc, bodyOf, logicBody, withRegRegValue_ok hd ha hv, settle_ok]

theorem exec_xor {c : BitVec 4} {r1 r2 : BitVec 8} {v : Value} {s : State} {d a : RegNo} {x : Word} (hc : Passes c s)
    (hd : r1.toNat = d.val) (ha : r2.toNat = a.val) (hv : resolveValue s v = .ok x) :
    exec (.xor c r1 r2 v) s = .next (s.writeDest d (s.reg a ^^^ x)) := by
  rw [exec_eq_conditional rfl, conditional_passes hc, bodyOf, logicBody, withRegRegValue_ok hd ha hv, settle_ok]

/-! ### Shifts -/

/-- R124, R125: a shift writes its operation of the source for an amount below 64. -/
theorem checksRegRegValue_shift {i : Instr} {c : BitVec 4} {r1 r2 : BitVec 8} {v : Value} {s : State}
    {op : Word → Nat → Word} {val : Nat → Nat → Nat} (h : exec i s = conditional c s (shiftBody op r1 r2 v))
    (hc : Passes c s) (hop : ∀ a n, (op a n).toNat = val a.toNat n) :
    ChecksRegRegValue i s r1 r2 v fun d a x t =>
      ∃ w : Word, (x.toNat < 64 → w.toNat = val a.toNat x.toNat) ∧ DestWritten s t d w := by
  refine checksRegRegValue_of _ h hc rfl fun d a x => ?_
  by_cases hx : x.toNat < 64
  · exact ⟨_, if_pos hx, op a x.toNat, fun _ => hop a x.toNat, writeDest_spec s d _⟩
  · exact ⟨_, if_neg hx, Config.freeWord s.draws, fun h => absurd h hx, writeDest_drawn_spec s 1 d _⟩

/-! ### The obligations -/

/-- Settles O32: the destination is checked before the source. -/
theorem notWritesTheInverse : Obligations.NotWritesTheInverse := by
  intro c r1 r2 s hc
  refine ⟨fun h1 => runsTo_of_error rfl hc (notBody_badDest h1 r2 s), fun h1 h2 => ?_, fun d a hd ha => ?_⟩
  · exact runsTo_of_error rfl hc (notBody_badSource (d := ⟨r1.toNat, h1⟩) rfl h2 s)
  · refine runsTo_of_ok rfl hc (notBody_ok hd ha) ⟨~~~(s.reg a), fun i hi => ?_, writeDest_spec s d _⟩
    rw [BitVec.getLsbD_not, decide_eq_true hi, Bool.true_and]

/-- Settles O33: the three operations act on each bit alone. -/
theorem andOrXorWriteTheBitwiseResult : Obligations.AndOrXorWriteTheBitwiseResult := by
  intro c r1 r2 v s hc
  simp only [List.forall_mem_cons, List.not_mem_nil, false_imp_iff, implies_true, and_true]
  exact ⟨checksRegRegValue_logic rfl hc fun _ _ _ => BitVec.getLsbD_and,
    checksRegRegValue_logic rfl hc fun _ _ _ => BitVec.getLsbD_or,
    checksRegRegValue_logic rfl hc fun _ _ _ => BitVec.getLsbD_xor⟩

/-- Settles O34: a shift to the right is a division, and one to the left a product cut to 64 bits. -/
theorem shiftsWriteTheShiftedValue : Obligations.ShiftsWriteTheShiftedValue := by
  intro c r1 r2 v s hc
  simp only [List.forall_mem_cons, List.not_mem_nil, false_imp_iff, implies_true, and_true]
  constructor
  · refine checksRegRegValue_shift (i := .shr c r1 r2 v) (op := fun a n => a >>> n) (val := fun a n => a / 2 ^ n) rfl hc
      fun a n => ?_
    rw [BitVec.toNat_ushiftRight, Nat.shiftRight_eq_div_pow]
  · refine checksRegRegValue_shift (i := .shl c r1 r2 v) (op := fun a n => a <<< n)
      (val := fun a n => a * 2 ^ n % 2 ^ 64) rfl hc fun a n => ?_
    rw [BitVec.toNat_shiftLeft, Nat.shiftLeft_eq]

/-- Settles O50: `xor` turns bit 8 of `$flag` and writes `Z`, which `load` then writes from `$iip`. -/
theorem rtiReturnsToIip : Obligations.RtiReturnsToIip := by
  intro s
  have hmask : ∀ i, i < 64 → (BitVec.setWidth 64 (0x100 : Half)).getLsbD i = decide (i = 8) := by decide
  set v := s.flag ^^^ BitVec.setWidth 64 (0x100 : Half) with hv
  set t := s.writeDest Reg.flag v with ht
  have hiip : t.advance.reg Reg.iip = s.reg Reg.iip := by
    rw [advance_reg _ (by decide), ht, writeDest_reg _ _ _ _ (by decide), if_neg (by decide)]
  have hxor : exec (.xor 15 3 3 (.imm 0x100)) s = .next t :=
    exec_xor (d := Reg.flag) (a := Reg.flag) (evalTest_always s.flag) rfl rfl rfl
  have hload : exec (.load 15 0 (.reg 6)) t.advance = .next (t.advance.writeDest Reg.ip (s.reg Reg.iip)) :=
    exec_load (d := Reg.ip) (evalTest_always t.advance.flag) rfl
      ((resolveValue_reg (r := 6) (k := Reg.iip) rfl).trans (congrArg Except.ok hiip))
  have htw := writeDest_spec s Reg.flag v
  have huw := writeDest_spec t.advance Reg.ip (s.reg Reg.iip)
  refine ⟨t, _, hxor, hload, huw.dest (by decide), ⟨fun q hq => ?_, SameMemory.of_eq rfl, rfl⟩, fun i hi => ?_⟩
  · simp only [List.mem_cons, List.not_mem_nil, or_false, not_or] at hq
    obtain ⟨hqi, hqf⟩ := hq
    rw [huw.regs q (by simp [hqi, hqf]), advance_reg _ hqi, htw.regs q (by simp [hqf])]
  · rw [huw.flag i hi, if_neg (by decide : Reg.ip ≠ Reg.flag), advance_flag, htw.flag i hi, if_pos rfl, hv,
      BitVec.getLsbD_xor, hmask i hi]
    by_cases h3 : i = 3
    · subst h3
      rfl
    · by_cases h8 : i = 8
      · subst h8
        simp
      · simp [h3, h8]

/-- Settles O51: one destination write of the two words ORed. -/
theorem intRaisesTheMaskedLines : Obligations.IntRaisesTheMaskedLines := by
  intro s
  have hw := writeDest_spec s Reg.isr (s.reg Reg.isr ||| s.reg Reg.k1)
  have hisr := hw.dest (by decide)
  have hk1 : resolveValue s (.reg 8) = .ok (s.reg Reg.k1) := resolveValue_reg rfl
  refine ⟨_, exec_or (d := Reg.isr) (a := Reg.isr) (evalTest_always s.flag) rfl rfl hk1,
    ⟨hw.regs, hw.memory, hw.trace⟩, fun i _ => ?_, fun i hi => ?_⟩
  · rw [hisr, BitVec.getLsbD_or]
  · rw [hw.flag i hi, hisr, if_neg (by decide : Reg.isr ≠ Reg.flag)]

end Sys2Proof.Machine
end

section
/-! PROOFS. Arithmetic by datatype (R100 to R105) and `cmp` (R113). -/

namespace Sys2Proof.Machine

/-! ### Datatypes (R65) -/

theorem assigned_of_ne {t : Datatype} (h6 : t ≠ .bad6) (h7 : t ≠ .bad7) : t.assigned = true := by
  cases t
  case bad6 | bad7 => contradiction
  all_goals rfl

theorem not_assigned_of_eq {t : Datatype} (h : t = .bad6 ∨ t = .bad7) : t.assigned = false := by
  rcases h with rfl | rfl <;> rfl

/-! ### The arithmetic instructions with a datatype -/

theorem arithBody_assigned {t : Datatype} (h : t.assigned = true) (op : Datatype → Word → Half → Word)
    (r1 r2 : BitVec 8) (v : Value) (s : State) :
    arithBody op t r1 r2 v s =
      withRegRegValue s r1 r2 v fun d a x => .ok (s.writeDest d (op t a (lowHalf x))) := by
  simp only [arithBody, checkDatatype_ok h, bind, Except.bind]

theorem arithBody_badDatatype {t : Datatype} (h : t.assigned = false) (op : Datatype → Word → Half → Word)
    (r1 r2 : BitVec 8) (v : Value) (s : State) : arithBody op t r1 r2 v s = .error (.invalidDatatype t.bits) := by
  simp only [arithBody, checkDatatype_error h, bind, Except.bind]

/-- R76, R100: the checks of an arithmetic instruction and its effect, from what `P` says of the word written. -/
theorem checksDatatype_arith {i : Instr} {c : BitVec 4} {t : Datatype} {r1 r2 : BitVec 8} {v : Value} {s : State}
    {op : Datatype → Word → Half → Word} {P : RegNo → Word → Word → State → Prop}
    (h : exec i s = conditional c s (arithBody op t r1 r2 v)) (hc : Passes c s)
    (hP : t ≠ .bad6 → t ≠ .bad7 → ∀ d a x, P d a x (s.writeDest d (op t a (lowHalf x)))) :
    (t = .bad6 ∨ t = .bad7 → RunsTo i s fun u => Raised s u (.invalidDatatype t.bits)) ∧
    (t ≠ .bad6 → t ≠ .bad7 → ChecksRegRegValue i s r1 r2 v P) := by
  constructor
  · intro ht
    exact runsTo_of_error h hc (arithBody_badDatatype (not_assigned_of_eq ht) op r1 r2 v s)
  · intro h6 h7
    exact checksRegRegValue_of _ h hc (arithBody_assigned (assigned_of_ne h6 h7) op r1 r2 v s)
      fun d a x => ⟨_, rfl, hP h6 h7 d a x⟩

/-- R100: an operation on exact integers, narrowed at the end, is the modular operation of the width on words. -/
theorem arith_eq_arithResult {fi : Int → Int → Int} {op32 : Half → Half → Half} {op64 : Word → Word → Word}
    {f32 : Half → Half → Half} {f64 : Word → Word → Word}
    (h32 : ∀ x y, BitVec.ofInt 32 (fi x y) = op32 (.ofInt 32 x) (.ofInt 32 y))
    (h64 : ∀ x y, BitVec.ofInt 64 (fi x y) = op64 (.ofInt 64 x) (.ofInt 64 y))
    {t : Datatype} (h6 : t ≠ .bad6) (h7 : t ≠ .bad7) (a : Word) (b : Half) :
    arith fi f32 f64 t a b = arithResult op32 op64 f32 f64 t a b := by
  have hext : BitVec.ofInt 64 b.toInt = b.signExtend 64 := rfl
  cases t
  case bad6 | bad7 => contradiction
  case f | d => rfl
  case hu | hi => simp only [arith, packInt, firstInt, arithResult, h32, ofInt_toNat, BitVec.ofInt_toInt, lowHalf]
  case u | i => simp only [arith, packInt, firstInt, arithResult, h64, ofInt_toNat, BitVec.ofInt_toInt, hext]

theorem ofInt_sub {n : Nat} (x y : Int) : BitVec.ofInt n (x - y) = BitVec.ofInt n x - BitVec.ofInt n y := by
  rw [Int.sub_eq_add_neg, BitVec.ofInt_add, BitVec.ofInt_neg, BitVec.sub_eq_add_neg]

/-- R101 to R103: an arithmetic instruction whose operation is that of the modular arithmetic. -/
theorem checksDatatype_arithResult {i : Instr} {c : BitVec 4} {t : Datatype} {r1 r2 : BitVec 8} {v : Value} {s : State}
    {fi : Int → Int → Int} {op32 : Half → Half → Half} {op64 : Word → Word → Word}
    {f32 : Half → Half → Half} {f64 : Word → Word → Word}
    (h : exec i s = conditional c s (arithBody (arith fi f32 f64) t r1 r2 v)) (hc : Passes c s)
    (h32 : ∀ x y, BitVec.ofInt 32 (fi x y) = op32 (.ofInt 32 x) (.ofInt 32 y))
    (h64 : ∀ x y, BitVec.ofInt 64 (fi x y) = op64 (.ofInt 64 x) (.ofInt 64 y)) :
    (t = .bad6 ∨ t = .bad7 → RunsTo i s fun u => Raised s u (.invalidDatatype t.bits)) ∧
    (t ≠ .bad6 → t ≠ .bad7 → ChecksRegRegValue i s r1 r2 v fun d a x u =>
      DestWritten s u d (arithResult op32 op64 f32 f64 t a (x.extractLsb' 0 32))) := by
  refine checksDatatype_arith h hc fun h6 h7 d a x => ?_
  rw [arith_eq_arithResult h32 h64 h6 h7]
  exact writeDest_spec s d _

/-! ### `mod` -/

/-- R105: what a remainder by a divisor that is not zero is. -/
theorem remainder_spec (a : Word) {b : Half} (hb : b.toInt ≠ 0) :
    (∃ q : Int, a.toInt = q * b.toInt + (remainder a b).toInt) ∧ |(remainder a b).toInt| < |b.toInt| ∧
    (0 ≤ a.toInt → 0 ≤ (remainder a b).toInt) ∧ (a.toInt ≤ 0 → (remainder a b).toInt ≤ 0) := by
  rw [remainder_toInt a b hb]
  exact tmod_facts a.toInt b.toInt hb

/-! ### `cmp` -/

theorem cmpBody_assigned {t : Datatype} (h : t.assigned = true) (r : BitVec 8) (v : Value) (s : State) :
    cmpBody t r v s = withRegValue s r v fun d x =>
      .ok (s.setReg Reg.flag (cmpFlags s.flag (compareAs t (s.reg d) (lowHalf x)) (lowHalf x))) := by
  simp only [cmpBody, checkDatatype_ok h, bind, Except.bind]

theorem cmpBody_badDatatype {t : Datatype} (h : t.assigned = false) (r : BitVec 8) (v : Value) (s : State) :
    cmpBody t r v s = .error (.invalidDatatype t.bits) := by
  simp only [cmpBody, checkDatatype_error h, bind, Except.bind]

theorem exec_cmp {c : BitVec 4} {t : Datatype} {r : BitVec 8} {v : Value} {s : State} {d : RegNo} {x : Word}
    (hc : Passes c s) (ht : t.assigned = true) (hr : r.toNat = d.val) (hv : resolveValue s v = .ok x) :
    exec (.cmp c t r v) s =
      .next (s.setReg Reg.flag (cmpFlags s.flag (compareAs t (s.reg d) (lowHalf x)) (lowHalf x))) := by
  rw [exec_eq_conditional rfl, conditional_passes hc, bodyOf, cmpBody_assigned ht, withRegValue_ok hr hv, settle_ok]

theorem compareInt_of_eq {a b : Int} (h : a = b) : compareInt a b = .eq := if_pos h

theorem compareInt_of_lt {a b : Int} (h : a < b) : compareInt a b = .lt := by
  rw [compareInt, if_neg (by omega), if_pos h]

theorem compareInt_of_gt {a b : Int} (h : b < a) : compareInt a b = .gt := by
  rw [compareInt, if_neg (by omega), if_neg (by omega)]

theorem compareAs_int {t : Datatype} (hf : t ≠ .f) (hd : t ≠ .d) (a : Word) (b : Half) :
    compareAs t a b = compareInt (firstInt t a) b.toInt := by
  cases t
  case f | d => contradiction
  all_goals rfl

/-- R63: the six tests against the code of an exact comparison. -/
theorem evalTest_of_compareInt {f : Word} {A B : Int} (hf : flagCmp f = Comparison.code (compareInt A B)) :
    ∀ p ∈ [(0b0001#4, decide (A = B)), (0b0000#4, decide (A ≠ B)), (0b0010#4, decide (A < B)),
           (0b0011#4, decide (A ≤ B)), (0b0110#4, decide (B < A)), (0b0111#4, decide (B ≤ A))],
      evalTest p.1 f = if p.2 then .holds else .fails := by
  simp (disch := decide) only [List.forall_mem_cons, List.not_mem_nil, false_imp_iff, implies_true, and_true,
    evalTest_of_comparison, hf]
  obtain h | rfl | h := lt_trichotomy A B
  · simp only [compareInt_of_lt h, h, h.ne, h.le, h.not_gt, h.not_ge, ne_eq, decide_true, decide_false,
      not_false_eq_true]
    decide
  · simp only [compareInt_of_eq (rfl : A = A), lt_irrefl, le_refl, ne_eq, decide_true, decide_false, not_true_eq_false]
    decide
  · simp only [compareInt_of_gt h, h, h.ne', h.le, h.not_gt, h.not_ge, ne_eq, decide_true, decide_false,
      not_false_eq_true]
    decide

/-! ### The obligations -/

/-- Settles O27: narrowing an exact integer to a width commutes with sum, difference and product. -/
theorem addSubMulByDatatype : Obligations.AddSubMulByDatatype := by
  intro c t r1 r2 v s hc
  simp only [List.forall_mem_cons, List.not_mem_nil, false_imp_iff, implies_true, and_true]
  exact ⟨checksDatatype_arithResult rfl hc BitVec.ofInt_add BitVec.ofInt_add,
    checksDatatype_arithResult rfl hc ofInt_sub ofInt_sub,
    checksDatatype_arithResult rfl hc BitVec.ofInt_mul BitVec.ofInt_mul⟩

/-- Settles O28: the quotient is of `dividend` and `divisor`, which convert by the datatype. -/
theorem divWritesTheDoubleQuotient : Obligations.DivWritesTheDoubleQuotient := by
  intro c t r1 r2 v s hc
  refine checksDatatype_arith (op := divOp) rfl hc fun _ _ d a x =>
    ⟨dividend t a, divisor t (lowHalf x), writeDest_spec s d _, ?_⟩
  cases t <;> simp [dividend, divisor, floatOps, lowHalf]

/-- Settles O29: `remainder` for a divisor that is not zero, a free value otherwise. -/
theorem modWritesTheTruncatedRemainder : Obligations.ModWritesTheTruncatedRemainder := by
  intro c r1 r2 v s hc
  refine checksRegRegValue_of _ rfl hc rfl fun d a x => ?_
  by_cases hx : lowHalf x = 0
  · refine ⟨_, if_pos hx, Config.freeWord s.draws, writeDest_drawn_spec s 1 d _, fun h => absurd ?_ h⟩
    show (lowHalf x).toInt = 0
    rw [hx]
    rfl
  · exact ⟨_, if_neg hx, remainder a (lowHalf x), writeDest_spec s d _, remainder_spec a⟩

/-- Settles O30: the code is that of `compareAs`, and A the first operand by datatype. -/
theorem cmpWritesTheComparisonBits : Obligations.CmpWritesTheComparisonBits := by
  intro c t r v s hc
  refine ⟨fun ht => runsTo_of_error rfl hc (cmpBody_badDatatype (not_assigned_of_eq ht) r v s), fun h6 h7 =>
    checksRegValue_of _ rfl hc (cmpBody_assigned (assigned_of_ne h6 h7) r v s) fun d x =>
      ⟨_, rfl, onlyRegs_setReg s _ _, Comparison.code (compareAs t (s.reg d) (lowHalf x)), firstInt t (s.reg d),
        fun i _ => ?_, ?_⟩⟩
  · rw [flag_setReg, if_pos rfl, getLsbD_cmpFlags]
    by_cases h3 : i = 3
    · simp [h3, lowHalf]
    · simp [h3]
  refine ⟨?unsigned32, ?unsigned64, ?signed32, ?signed64, fun hf hd => ?_, ?_⟩
  case unsigned32 | unsigned64 | signed32 | signed64 =>
    rintro rfl
    rfl
  · rw [compareAs_int hf hd, lowHalf]
    exact ⟨fun h => by rw [compareInt_of_eq h]; rfl, fun h => by rw [compareInt_of_lt h]; rfl,
      fun h => by rw [compareInt_of_gt h]; rfl⟩
  · intro o ho
    have hcmp : compareAs t (s.reg d) (lowHalf x) = o := by
      obtain ⟨rfl, rfl⟩ | ⟨rfl, rfl⟩ := ho <;> rfl
    rw [hcmp]
    refine ⟨?_, ?_, ?_, ?_⟩ <;>
    · rintro rfl
      rfl

/-- Settles O31: `cmp` leaves the code of the exact comparison, which the six tests read. -/
theorem testsAfterCmpAgreeWithTheOrder : Obligations.TestsAfterCmpAgreeWithTheOrder := by
  intro t r d v x s A B hr hv hB hA
  have ht : t.assigned = true ∧ t ≠ .f ∧ t ≠ .d ∧ firstInt t (s.reg d) = A := by
    obtain ⟨rfl, rfl⟩ | ⟨rfl, rfl⟩ | ⟨rfl, rfl⟩ | ⟨rfl, rfl⟩ := hA <;> exact ⟨rfl, nofun, nofun, rfl⟩
  obtain ⟨hassigned, hf, hd, rfl⟩ := ht
  refine ⟨_, exec_cmp (evalTest_always s.flag) hassigned hr hv, evalTest_of_compareInt ?_⟩
  rw [flag_setReg, if_pos rfl, flagCmp_cmpFlags, compareAs_int hf hd, hB, lowHalf]

end Sys2Proof.Machine
end

section
/-! PROOFS. `push` (R130), `call` and `ret` (R135 to R138). -/

namespace Sys2Proof.Machine

/-! ### `push` -/

/-- R130: where the 8 bytes below `$sp` lie in memory, the value is 4 above the lowest of them. -/
theorem toNat_sub_four {S : Word} {size : Nat} (hs : size ≤ 2 ^ 32) (h : (S - 8).toNat + 8 ≤ size) :
    (S - 4).toNat = (S - 8).toNat + 4 := by
  bv_omega

theorem extract_lowHalf (x : Word) {j : Nat} (hj : j < 4) :
    (lowHalf x).extractLsb' (8 * j) 8 = x.extractLsb' (8 * j) 8 := by
  apply BitVec.eq_of_getLsbD_eq
  intro i hi
  have h32 : 8 * j + i < 32 := by omega
  simp [lowHalf, hi, h32]

theorem pushBody_badValue {v : Value} {s : State} {e : Err} (hv : resolveValue s v = .error e) :
    pushBody v s = .error e := by
  simp only [pushBody, hv, bind, Except.bind]

@[simp] theorem pushed_mem (s : State) (x : Word) :
    (s.pushed x).mem = pushMemory s.mem (s.reg Reg.sp - 8).toNat (lowHalf x) s.draws := rfl

theorem pushed_sp (s : State) (x : Word) : (s.pushed x).reg Reg.sp = s.reg Reg.sp - 4 := reg_setReg_self _ _ _

theorem pushed_sameMemoryOutside (s : State) (x : Word) :
    SameMemoryOutside s (s.pushed x) (s.reg Reg.sp - 8).toNat 8 where
  size := pushMemory_size _ _ _ _
  bytes j hj := byte_pushMemory_other _ _ _ _ j hj

/-! ### `call` -/

theorem callBody_badAddr {a : Addr} {s : State} {e : Err} (ha : effAddr s a = .error e) : callBody a s = .error e := by
  simp only [callBody, ha, bind, Except.bind]

@[simp] theorem called_mem (s : State) (p : Word) :
    (s.called p).mem = frameMemory s (s.reg Reg.sp - 80).toNat := rfl

@[simp] theorem called_ip (s : State) (p : Word) : (s.called p).reg Reg.ip = p := reg_setReg_self _ _ _

@[simp] theorem called_sp (s : State) (p : Word) : (s.called p).reg Reg.sp = s.reg Reg.sp - 80 := by
  rw [State.called, reg_setReg_ne _ _ (by decide), reg_setReg_self]

@[simp] theorem called_fp (s : State) (p : Word) : (s.called p).reg Reg.fp = s.reg Reg.sp - 8 := by
  rw [State.called, reg_setReg_ne _ _ (by decide), reg_setReg_ne _ _ (by decide), reg_setReg_self]

theorem called_sameMemoryOutside (s : State) (p : Word) :
    SameMemoryOutside s (s.called p) (s.reg Reg.sp - 80).toNat 80 where
  size := frameMemory_size _ _
  bytes j hj := byte_frameMemory_other s _ j hj

/-- R137: the slot of each preserved register. -/
theorem loadLE_frameMemory_savedReg (s : State) (low : Nat) (k : Fin 8) :
    (frameMemory s low).loadLE (low + 56 - 8 * k.val) 8 = s.reg ⟨24 + k.val, by omega⟩ := by
  obtain ⟨h1, h2, h3, h4, h5, h6, h7, h8⟩ := loadLE_frameMemory_saved s low
  match k with
  | 0 => exact h1
  | 1 => exact h2
  | 2 => exact h3
  | 3 => exact h4
  | 4 => exact h5
  | 5 => exact h6
  | 6 => exact h7
  | 7 => exact h8

/-- R137: a slot of the frame, 8 bytes at `off` above its lowest address, as an address below `$sp`. -/
theorem memRead_called {s : State} (hb : (s.reg Reg.sp - 80).toNat + 80 ≤ s.mem.size)
    (p : Word) {a : Word} {off : Nat} {v : Word} (ha : a.toNat = (s.reg Reg.sp - 80).toNat + off) (hoff : off ≤ 72)
    (hv : (frameMemory s (s.reg Reg.sp - 80).toNat).loadLE a.toNat 8 = v) : (s.called p).memRead a 8 = .ok v := by
  rw [memRead_ok_iff, called_mem, Memory.InBounds, frameMemory_size]
  exact ⟨by omega, hv⟩

/-- R135, R137: what the frame of a call reads as. -/
theorem called_frame {s : State} (hs : s.mem.size ≤ 2 ^ 32) (hb : (s.reg Reg.sp - 80).toNat + 80 ≤ s.mem.size)
    (p : Word) :
    (s.called p).memRead (s.reg Reg.sp - 8) 8 = .ok (s.reg Reg.fp) ∧
    (s.called p).memRead (s.reg Reg.sp - 16) 8 = .ok (s.reg Reg.ip) ∧
    (∀ k : Fin 8, (s.called p).memRead (s.reg Reg.sp - 24 - 8 * BitVec.ofNat 64 k.val) 8 =
      .ok (s.reg ⟨24 + k.val, by omega⟩)) := by
  have h8 : (s.reg Reg.sp - 8).toNat = (s.reg Reg.sp - 80).toNat + 72 := by bv_omega
  have h16 : (s.reg Reg.sp - 16).toNat = (s.reg Reg.sp - 80).toNat + 64 := by bv_omega
  have hk : ∀ k : Fin 8, (s.reg Reg.sp - 24 - 8 * BitVec.ofNat 64 k.val).toNat =
      (s.reg Reg.sp - 80).toNat + (56 - 8 * k.val) := by
    intro k
    bv_omega
  refine ⟨memRead_called hb p h8 (by omega) ?_, memRead_called hb p h16 (by omega) ?_, fun k =>
    memRead_called hb p (hk k) (by omega) ?_⟩
  · rw [h8, loadLE_frameMemory_fp]
  · rw [h16, loadLE_frameMemory_ip]
  · rw [hk k, ← Nat.add_sub_assoc (by omega), loadLE_frameMemory_savedReg]

/-! ### `ret` -/

/-- The reads of a list, one after the other. -/
def readAll (s : State) : List (Word × Nat) → Except Err Unit
  | [] => .ok ()
  | (a, n) :: l => do
    let _ ← s.memRead a n
    readAll s l

theorem readAll_ok {s : State} {l : List (Word × Nat)} (h : ∀ p ∈ l, p.1.toNat + p.2 ≤ s.mem.size) :
    readAll s l = .ok () := by
  induction l with
  | nil => rfl
  | cons p l ih =>
    obtain ⟨a, n⟩ := p
    simp only [List.forall_mem_cons] at h
    simp only [readAll, memRead_ok h.1, bind, Except.bind, ih h.2]

/-- The first read out of bounds is the error. -/
theorem readAll_error {s : State} {before after : List (Word × Nat)} {a : Word} {n : Nat}
    (h : ∀ p ∈ before, p.1.toNat + p.2 ≤ s.mem.size) (ha : s.mem.size < a.toNat + n) :
    readAll s (before ++ (a, n) :: after) = .error (.segfault a) := by
  induction before with
  | nil => simp only [List.nil_append, readAll, memRead_error (Nat.not_le.mpr ha), bind, Except.bind]
  | cons p l ih =>
    obtain ⟨a', n'⟩ := p
    simp only [List.forall_mem_cons] at h
    simp only [List.cons_append, readAll, memRead_ok h.1, bind, Except.bind, ih h.2]

/-- `y` ends in the error that `x` ends in, and in a state when `x` ends in none. -/
def EndsAs (x : Except Err Unit) (y : Except Err State) : Prop :=
  (∀ e, x = .error e → y = .error e) ∧ (x = .ok () → ∃ t, y = .ok t)

theorem EndsAs.bind {α : Type} (x : Except Err α) {y : Except Err Unit} {z : α → Except Err State}
    (h : ∀ a, EndsAs y (z a)) : EndsAs (x >>= fun _ => y) (x >>= z) := by
  cases x with
  | error e => exact ⟨fun _ he => by cases he; rfl, nofun⟩
  | ok a => exact h a

/-- R136: all reads of `ret` come before anything else it does. -/
theorem retBody_endsAs_reads (s : State) : EndsAs (readAll s (retReads (s.reg Reg.fp))) (retBody s) := by
  unfold retBody retReads
  iterate 11 refine EndsAs.bind _ fun _ => ?_
  exact ⟨nofun, fun _ => ⟨_, rfl⟩⟩

/-- R136: where each register of the frame comes from. -/
theorem retBody_restores {s t : State} (h : retBody s = .ok t) :
    s.memRead (s.reg Reg.fp) 8 = .ok (t.reg Reg.fp) ∧
    s.memRead (s.reg Reg.fp - 8) 8 = .ok (t.reg Reg.ip) ∧
    (∀ k : Fin 8, s.memRead (s.reg Reg.fp - 16 - 8 * BitVec.ofNat 64 k.val) 8 =
      .ok (t.reg ⟨24 + k.val, by omega⟩)) ∧
    (∃ nb : Half, s.memRead (s.reg Reg.fp + 8) 4 = .ok nb ∧ t.reg Reg.sp = s.reg Reg.fp + 12 + nb.setWidth 64) := by
  unfold retBody at h
  obtain ⟨ofp, hfp, h⟩ := exists_of_bind_eq_ok h
  obtain ⟨oip, hip, h⟩ := exists_of_bind_eq_ok h
  obtain ⟨v1, h1, h⟩ := exists_of_bind_eq_ok h
  obtain ⟨v2, h2, h⟩ := exists_of_bind_eq_ok h
  obtain ⟨v3, h3, h⟩ := exists_of_bind_eq_ok h
  obtain ⟨v4, h4, h⟩ := exists_of_bind_eq_ok h
  obtain ⟨v5, h5, h⟩ := exists_of_bind_eq_ok h
  obtain ⟨v6, h6, h⟩ := exists_of_bind_eq_ok h
  obtain ⟨v7, h7, h⟩ := exists_of_bind_eq_ok h
  obtain ⟨v8, h8, h⟩ := exists_of_bind_eq_ok h
  obtain ⟨nb, hnb, h⟩ := exists_of_bind_eq_ok h
  cases h
  have hk : ∀ k : Fin 8, s.reg Reg.fp - 16 - 8 * BitVec.ofNat 64 k.val =
      s.reg Reg.fp - BitVec.ofNat 64 (16 + 8 * k.val) := by
    intro k
    bv_omega
  have restored : ∀ {a : Word} (u : State) (r : RegNo) {x : Word}, s.memRead a 8 = .ok x →
      s.memRead a 8 = .ok ((u.setReg r x).reg r) := by
    intro a u r x h
    rw [reg_setReg_self, h]
  simp (disch := decide) only [reg_setReg_ne]
  refine ⟨restored _ _ hfp, restored _ _ hip, fun k => ?_, nb, hnb, reg_setReg_self _ _ _⟩
  rw [hk]
  fin_cases k <;> simp (disch := decide) only [reg_setReg_ne]
  exacts [restored _ _ h1, restored _ _ h2, restored _ _ h3, restored _ _ h4, restored _ _ h5, restored _ _ h6,
    restored _ _ h7, restored _ _ h8]

/-! ### `ret` after `call` -/

theorem exec_call {c : BitVec 4} {a : Addr} {s : State} {p : Word} (hc : Passes c s) (ha : effAddr s a = .ok p)
    (hb : s.mem.InBounds (s.reg Reg.sp - 80) 80) : exec (.call c a) s = .next (s.called p) := by
  rw [exec_eq_conditional rfl, conditional_passes hc, bodyOf, callBody_of_addr ha, if_pos hb, settle_ok]

theorem exec_ret {c : BitVec 4} {s t : State} (hc : Passes c s) (h : retBody s = .ok t) :
    exec (.ret c) s = .next t := by
  rw [exec_eq_conditional rfl, conditional_passes hc, bodyOf, h, settle_ok]

theorem mem_savedRegs_iff (r : RegNo) : r ∈ savedRegs ↔ ∃ k : Fin 8, r = ⟨24 + k.val, by omega⟩ := by
  revert r
  decide

/-- States of one memory size that agree on the bytes read agree on the read. -/
theorem memRead_congr {s u : State} {a : Word} {n : Nat} (hsize : u.mem.size = s.mem.size)
    (hbytes : ∀ j, a.toNat ≤ j → j < a.toNat + n → u.mem.byte j = s.mem.byte j) : u.memRead a n = s.memRead a n := by
  simp only [State.memRead, Memory.InBounds, hsize, loadLE_congr hbytes]

/-- R136, R137: the reads of `ret` with `$fp` at the highest slot of a frame in bounds, and the count word above it. -/
theorem retReads_inBounds {S : Word} {size : Nat} (hs : size ≤ 2 ^ 32) (hb : (S - 80).toNat + 80 ≤ size)
    (hcount : S.toNat + 4 ≤ size) : ∀ q ∈ retReads (S - 8), q.1.toNat + q.2 ≤ size := by
  simp only [retReads, List.forall_mem_cons, List.not_mem_nil, false_imp_iff, implies_true, and_true]
  and_intros <;> bv_omega

/-! ### The obligations -/

/-- Settles O35: the value, the bounds of the 8 bytes, and the state `s.pushed x`. -/
theorem pushWritesBelowTheStackPointer : Obligations.PushWritesBelowTheStackPointer := by
  intro c v s hc hs
  refine ⟨fun e hv => runsTo_of_error rfl hc (pushBody_badValue hv), fun x hv => ⟨fun hb => ?_, fun hb => ?_⟩⟩
  · exact runsTo_of_error rfl hc ((pushBody_of_value hv).trans (if_neg (Nat.not_le.mpr hb)))
  · refine runsTo_of_ok rfl hc ((pushBody_of_value hv).trans (if_pos hb))
      ⟨pushed_sp s x, pushed_sameRegs s x, rfl, fun j hj => ?_, pushed_sameMemoryOutside s x⟩
    rw [toNat_sub_four hs hb, pushed_mem, byte_pushMemory_value _ _ _ _ _ hj, extract_lowHalf x hj]

/-- Settles O36: the address, the bounds of the 80 bytes, and the state `s.called p` with the frame of R137. -/
theorem callPushesTheFrameAndJumps : Obligations.CallPushesTheFrameAndJumps := by
  intro c a s hc hs
  refine ⟨fun e ha => runsTo_of_error rfl hc (callBody_badAddr ha), fun p ha => ⟨fun hb => ?_, fun hb => ?_⟩⟩
  · exact runsTo_of_error rfl hc ((callBody_of_addr ha).trans (if_neg (Nat.not_le.mpr hb)))
  · obtain ⟨hfp, hip, hsaved⟩ := called_frame hs hb p
    exact runsTo_of_ok rfl hc ((callBody_of_addr ha).trans (if_pos hb))
      ⟨called_ip s p, called_fp s p, called_sp s p, called_sameRegs s p, rfl, hfp, hip, hsaved,
        called_sameMemoryOutside s p⟩

/-- Settles O37: `ret` ends as its list of reads does, and a completed `ret` restores what it read. -/
theorem retRestoresFromTheFrame : Obligations.RetRestoresFromTheFrame := by
  intro c s hc
  obtain ⟨herror, hok⟩ := retBody_endsAs_reads s
  constructor
  · intro before after a n hreads hbefore ha
    exact runsTo_of_error rfl hc (herror _ (by rw [hreads, readAll_error hbefore ha]))
  · intro hb
    obtain ⟨t, ht⟩ := hok (readAll_ok hb)
    obtain ⟨hfp, hip, hsaved, hsp⟩ := retBody_restores ht
    exact runsTo_of_ok rfl hc ht ⟨hfp, hip, hsaved, hsp, retBody_inv ht⟩

/-- Settles O38: `ret` reads what `call` stored, because the reads are of the bytes of the frame. -/
theorem retUndoesCall : Obligations.RetUndoesCall := by
  intro c c' a p s t u nb hc hs ha hb hcall hc' hfp hsize hbytes hnb
  obtain rfl : s.called p = t := Host.Outcome.next.inj ((exec_call hc ha hb).symm.trans hcall)
  rw [called_fp] at hfp
  rw [called_mem, frameMemory_size] at hsize
  have hcount : (s.reg Reg.sp).toNat + 4 ≤ s.mem.size := hsize ▸ (memRead_ok_iff.mp hnb).1
  have hslot : ∀ {x : Word}, (s.reg Reg.sp - 80).toNat ≤ x.toNat → x.toNat + 8 ≤ (s.reg Reg.sp - 80).toNat + 80 →
      u.memRead x 8 = (s.called p).memRead x 8 := fun h1 h2 =>
    memRead_congr (by rw [hsize, called_mem, frameMemory_size]) fun j hj1 hj2 => hbytes j (by omega) (by omega)
  obtain ⟨w, hw⟩ := (retBody_endsAs_reads u).2 (readAll_ok (by
    rw [hfp, hsize]
    exact retReads_inBounds hs hb hcount))
  obtain ⟨rfp, rip, rsaved, nb', rnb, rsp⟩ := retBody_restores hw
  obtain ⟨cfp, cip, csaved⟩ := called_frame hs hb p
  rw [hfp] at rfp rip rsaved rnb rsp
  have hip : s.reg Reg.sp - 8 - 8 = s.reg Reg.sp - 16 := by bv_omega
  have hk : ∀ k : Fin 8, s.reg Reg.sp - 8 - 16 - 8 * BitVec.ofNat 64 k.val =
      s.reg Reg.sp - 24 - 8 * BitVec.ofNat 64 k.val := by
    intro k
    bv_omega
  refine ⟨w, exec_ret hc' hw, ?_, ?_, fun r hr => ?_, ?_, SameMemory.of_eq (retBody_mem hw)⟩
  · rw [hip, hslot (by bv_omega) (by bv_omega), cip] at rip
    exact (Except.ok.inj rip).symm
  · rw [hslot (by bv_omega) (by bv_omega), cfp] at rfp
    exact (Except.ok.inj rfp).symm
  · obtain ⟨k, rfl⟩ := (mem_savedRegs_iff r).mp hr
    have h := rsaved k
    rw [hk, hslot (by bv_omega) (by bv_omega), csaved k] at h
    exact (Except.ok.inj h).symm
  · rw [BitVec.sub_add_cancel, hnb] at rnb
    obtain rfl := Except.ok.inj rnb
    rw [rsp]
    bv_omega

end Sys2Proof.Machine
end

section
/-! PROOFS. The system calls (R140 to R155) but `exit`. -/

namespace Sys2Proof.Machine

/-! ### `syscall` in error -/

theorem syscallBody_badValue {s : State} {v : Value} {e : Err} (hv : resolveValue s v = .error e) :
    syscallBody v s = .error e := by
  simp only [syscallBody, hv, bind, Except.bind]

/-- R155: a number that no service has. -/
theorem syscallBody_of_none {s : State} {v : Value} {n : Word} (hv : resolveValue s v = .ok n)
    (hn : serviceOf n = none) : syscallBody v s = .error (.invalidSyscall n) := by
  simp only [syscallBody, hv, hn, bind, Except.bind]

theorem serviceOf_eq_none {n : Word} (h : n.toNat = 0 ∨ (11 < n.toNat ∧ n.toNat < 100) ∨ 102 < n.toNat) :
    serviceOf n = none := by
  unfold serviceOf
  split
  case h_15 => rfl
  all_goals omega

/-- R172: a `syscall` whose test passes and whose service is in error raises it. -/
theorem runsTo_syscall_error {c : BitVec 4} {s : State} {v : Value} {n : Word} {svc : Service} {e : Err}
    (hc : Passes c s) (hv : resolveValue s v = .ok n) (hn : serviceOf n = some svc) (he : serve s svc = .error e) :
    RunsTo (.syscall c v) s fun t => Raised s t e :=
  runsTo_of_error rfl hc ((syscallBody_of_service hv hn).trans he)

/-! ### Output -/

theorem emit_onlyEmits (s : State) (e : Event) : OnlyEmits s (s.emit e) e where
  trace := emit_trace s e
  regs _ _ := emit_reg s e _
  memory := SameMemory.of_eq (emit_mem s e)

theorem serve_printString (s : State) :
    serve s .printString = (cString s (s.reg Reg.r1)).map fun bs => s.emit (.printString bs) := by
  cases h : cString s (s.reg Reg.r1) <;> simp only [serve, h] <;> rfl

theorem serve_printMem (s : State) :
    serve s .printMem =
      (readBytes s (s.reg Reg.r1) (s.reg Reg.r2).toNat).map fun bs => s.emit (.printMem (s.reg Reg.r1) bs) := by
  cases h : readBytes s (s.reg Reg.r1) (s.reg Reg.r2).toNat <;> simp only [serve, h] <;> rfl

/-! ### Input -/

theorem onlyRegs_drawn_setReg (s : State) (n : Nat) (r : RegNo) (v : Word) :
    OnlyRegs s ((s.drawn n).setReg r v) [r] := by
  obtain ⟨hregs, hmem, htrace⟩ := onlyRegs_setReg (s.drawn n) r v
  exact ⟨hregs, ⟨hmem.size, hmem.bytes⟩, htrace⟩

/-- R146 to R149: an input service that writes the value `x` to `$ret`. -/
theorem runsTo_input {c : BitVec 4} {s : State} {v : Value} {n : Word} {svc : Service} {x : Word} {width : Nat}
    (hc : Passes c s) (hv : resolveValue s v = .ok n) (hn : serviceOf n = some svc)
    (hx : serve s svc = .ok ((s.drawn 1).setReg Reg.ret x)) (hw : x.toNat < 2 ^ width) :
    RunsTo (.syscall c v) s fun t => OnlyRegs s t [Reg.ret] ∧ (t.reg Reg.ret).toNat < 2 ^ width :=
  runsTo_syscall hc hv hn hx ⟨onlyRegs_drawn_setReg s 1 Reg.ret x, by rwa [reg_setReg_self]⟩

theorem toNat_setWidth_lt {n : Nat} (x : BitVec n) : (x.setWidth 64).toNat < 2 ^ n := by
  rw [BitVec.toNat_setWidth]
  exact (Nat.mod_le _ _).trans_lt x.isLt

/-- R150: the bytes `read_string` writes before the zero byte. -/
def State.inputBytes (s : State) : List Byte := (inputString s.draws).take (s.reg Reg.r2).toNat

theorem inputBytes_ne_zero (s : State) : ∀ b ∈ s.inputBytes, b ≠ 0 := by
  intro b hb
  have h := List.mem_of_mem_take hb
  simpa using (List.mem_filter.mp h).2

theorem serve_readString (s : State) :
    serve s .readString = .ok (storeBytes (s.drawn 1) (s.reg Reg.r1) (s.inputBytes ++ [0])) := rfl

/-! ### The obligations -/

/-- Settles O39: each of the four services is one `State.emit`. -/
theorem outputServicesAppendOneEvent : Obligations.OutputServicesAppendOneEvent := by
  intro c v s hc
  simp only [List.forall_mem_cons, List.not_mem_nil, false_imp_iff, implies_true, and_true]
  exact ⟨fun hv => runsTo_syscall hc hv (svc := .printInt) rfl rfl (emit_onlyEmits s _),
    fun hv => runsTo_syscall hc hv (svc := .printFloat) rfl rfl (emit_onlyEmits s _),
    fun hv => runsTo_syscall hc hv (svc := .printDouble) rfl rfl (emit_onlyEmits s _),
    fun hv => runsTo_syscall hc hv (svc := .printChar) rfl rfl (emit_onlyEmits s _)⟩

/-- Settles O40: the service runs with `$ip` advanced, and shows the registers as they then are. -/
theorem printRegsShowsEveryRegister : Obligations.PrintRegsShowsEveryRegister := by
  intro s c v hr hi hb hd hc hv
  have hc' : Passes c s.advance := by rwa [Passes, advance_flag]
  obtain ⟨t, ht, rfl⟩ := runsTo_syscall (P := (· = s.advance.emit (.printRegs s.advance.regs))) hc' hv
    (svc := .printRegs) rfl rfl rfl
  refine ⟨_, s.advance.regs, (step_of_decode hr hi hb hd).trans ht, advance_ip s, fun r => advance_reg s, rfl,
    advance_ip s, fun r hr => ?_, SameMemory.of_eq rfl⟩
  rw [emit_reg, advance_reg s (by simpa using hr)]

/-- Settles O41: the bytes are `stackBytes`. -/
theorem printStackEmitsTheStack : Obligations.PrintStackEmitsTheStack := by
  intro c v s hc hv
  refine ⟨stackBytes s, by simp [stackBytes], fun j h => by simp [stackBytes], ?_⟩
  exact runsTo_syscall hc hv (svc := .printStack) rfl rfl (emit_onlyEmits s _)

/-- Settles O42: the search for the zero byte ends at it, or at the end of memory. -/
theorem printStringStopsAtTheZeroByte : Obligations.PrintStringStopsAtTheZeroByte := by
  intro c v s hc hv
  constructor
  · intro bs hlen hbytes hzero
    have hstring : cString s (s.reg Reg.r1) = .ok bs := stringFrom_ok _ _ _ _ (by omega) hbytes hzero
    exact runsTo_syscall hc hv (svc := .printString) rfl (by rw [serve_printString, hstring]; rfl) (emit_onlyEmits s _)
  · intro hnz
    have hstring : cString s (s.reg Reg.r1) =
        .error (.segfault (BitVec.ofNat 64 (max (s.reg Reg.r1).toNat s.mem.size))) := by
      rw [cString, stringFrom_error _ _ _ fun j h1 h2 => hnz j h1 (by omega)]
      congr 3
      omega
    exact runsTo_syscall_error hc hv (svc := .printString) rfl (by rw [serve_printString, hstring]; rfl)

/-- Settles O43: the bytes are read before anything is emitted. -/
theorem printMemEmitsTheSegment : Obligations.PrintMemEmitsTheSegment := by
  intro c v s hc hv hs
  constructor
  · intro h
    exact runsTo_syscall hc hv (svc := .printMem) rfl (by rw [serve_printMem, readBytes_ok s _ _ hs h]; rfl)
      (emit_onlyEmits s _)
  · intro h0 h
    exact runsTo_syscall_error hc hv (svc := .printMem) rfl (by rw [serve_printMem, readBytes_error s _ _ hs h0 h]; rfl)

/-- Settles O44: each of the four services draws a value of its width and writes it to `$ret`. -/
theorem inputServicesWriteRet : Obligations.InputServicesWriteRet := by
  intro c v s hc
  simp only [List.forall_mem_cons, List.not_mem_nil, false_imp_iff, implies_true, and_true]
  exact ⟨fun hv => runsTo_input hc hv (svc := .readInt) rfl rfl (BitVec.isLt _),
    fun hv => runsTo_input hc hv (svc := .readFloat) rfl rfl (toNat_setWidth_lt _),
    fun hv => runsTo_input hc hv (svc := .readDouble) rfl rfl (BitVec.isLt _),
    fun hv => runsTo_input hc hv (svc := .readChar) rfl rfl (toNat_setWidth_lt _)⟩

/-- Settles O45: `storeBytes` of the cut input and a zero byte, from the state with the input drawn. -/
theorem readStringWritesATerminatedString : Obligations.ReadStringWritesATerminatedString := by
  intro c v s hc hv hs
  obtain ⟨hbytes, hout, hfit, herr⟩ := storeBytes_spec (s.inputBytes ++ [0]) (s.drawn 1) (s.reg Reg.r1) hs
  rw [List.length_append, List.length_singleton] at hout hfit herr
  refine ⟨s.inputBytes, inputBytes_ne_zero s, List.length_take_le _ _, ?_⟩
  refine runsTo_syscall hc hv (svc := .readString) rfl (serve_readString s)
    ⟨hbytes, ⟨hout.size, hout.bytes⟩, hfit, fun h => ?_⟩
  obtain ⟨hflag, hret, hregs, htrace⟩ := herr (by simp) (Nat.lt_succ_of_le h)
  exact ⟨hflag, hret, hregs, htrace⟩

/-- Settles O47: the operand is resolved before its number is looked up. -/
theorem unknownServiceRaisesInvalidSyscall : Obligations.UnknownServiceRaisesInvalidSyscall := by
  intro c v s hc
  exact ⟨fun e hv => runsTo_of_error rfl hc (syscallBody_badValue hv),
    fun n hv hn => runsTo_of_error rfl hc (syscallBody_of_none hv (serviceOf_eq_none hn))⟩

/-- Settles O48: what is recorded is the operand, zero-extended where it is narrower than a word. -/
theorem errorCodesAndRecordedValues : Obligations.ErrorCodesAndRecordedValues := by
  intro op a n r dt
  refine ⟨⟨rfl, ?_⟩, ⟨rfl, rfl⟩, ⟨rfl, ?_⟩, ⟨rfl, rfl⟩, ⟨rfl, ?_⟩⟩
  all_goals exact BitVec.toNat_setWidth_of_le (by decide)

end Sys2Proof.Machine
end
